-- ==== Sys2Proof/Word.lean ====
section
/-! DEFINITION. The two machine words of the engine (00_scope.md R10, R11) and the 16-byte block (R17).
Byte order and bit-field helpers stand in Machine/Lanes.lean. -/

namespace Sys2Proof

/-- A cipher datum: an unsigned 8-bit number (R10, R11). -/
abbrev Byte := BitVec 8

/-- A host bus word, a host offset, LEN, OUT_LEN, or the key-schedule expander's scratch value (R10, R11). -/
abbrev Word := BitVec 32

/-- 16 consecutive bytes of cipher data (R17, R87): the block register, the master key, a round key. -/
abbrev Block := Vector Byte 16

end Sys2Proof
end

