-- ==== Sys2Proof/Syntax.lean ====
section
/-! DEFINITION. The engine's command set: one constructor per row of spec/opcode_table.json (30_encoding.md R69). -/

namespace Sys2Proof

/-- A command of the engine. Every other operand is implicit (R68). -/
inductive Instr where
  /-- Run the key-schedule expander and mark the engine ready (R85). -/
  | init
  /-- Decrypt BLK in place (R106). -/
  | dblk
  /-- Decrypt `BUF[0..LEN)` in place and strip the padding (R112). -/
  | dbuf
  /-- Permute BLK (R99). -/
  | perm
  /-- Substitute every byte of BLK through SBOX[7] (R100). -/
  | subst
  /-- Mix column `c` of BLK; `c` is ARG[1:0] (R68, R101). -/
  | mixcol (c : BitVec 2)
  /-- XOR round key `r` into BLK; `r` is ARG, legal in 0..10 (R68, R102). -/
  | addrk (r : BitVec 4)
  deriving DecidableEq, Repr

end Sys2Proof
end

