-- ==== Sys2Proof/WellFormed.lean ====
section
/-! DEFINITION. Which terms of `Instr` are commands of the engine (30_encoding.md R68, R71). -/

namespace Sys2Proof

/-- A well-formed command: ADDRK's round-key number lies in 0..10 (R68); the column number of MIXCOL
is two bits wide and every value of it is legal. -/
def Instr.wellFormed : Instr → Bool
  | .init => true
  | .dblk => true
  | .dbuf => true
  | .perm => true
  | .subst => true
  | .mixcol _ => true
  | .addrk r => decide (r.toNat ≤ 10)

end Sys2Proof
end

