-- ==== Sys2Proof/Decode.lean ====
section
/-! DEFINITION. The command word: its fields, the decoder (30_encoding.md R66-R72) and the encoder. -/

namespace Sys2Proof

/-- Why a word is no command (R71). -/
inductive Reject where
  /-- RSV, bits 31:12, is not 0. -/
  | reservedBits (rsv : BitVec 20)
  /-- OP, bits 7:0, is not in the opcode map of R69. -/
  | unknownOp (op : BitVec 8)
  /-- ARG, bits 11:8, is outside the range R68 gives this OP. -/
  | illegalArg (op : BitVec 8) (arg : BitVec 4)
  deriving DecidableEq, Repr

/-- OP, bits 7:0 of the command word (R67). -/
def opField (w : Word) : BitVec 8 := w.extractLsb' 0 8

/-- ARG, bits 11:8 of the command word (R67). -/
def argField (w : Word) : BitVec 4 := w.extractLsb' 8 4

/-- RSV, bits 31:12 of the command word (R67). -/
def rsvField (w : Word) : BitVec 20 := w.extractLsb' 12 20

/-- A command whose ARG must be 0 (R68). -/
def decodeNoArg (w : Word) (i : Instr) : Except Reject Instr :=
  if argField w = 0#4 then .ok i else .error (.illegalArg (opField w) (argField w))

/-- MIXCOL: ARG[3:2] must be 0, and the column is ARG[1:0] (R68). -/
def decodeMixcol (w : Word) : Except Reject Instr :=
  if (argField w).extractLsb' 2 2 = 0#2 then .ok (.mixcol ((argField w).extractLsb' 0 2))
  else .error (.illegalArg (opField w) (argField w))

/-- ADDRK: ARG is the round-key number, and 11 to 15 are illegal (R68). -/
def decodeAddrk (w : Word) : Except Reject Instr :=
  if (argField w).toNat ≤ 10 then .ok (.addrk (argField w))
  else .error (.illegalArg (opField w) (argField w))

/-- The decoder of `ExecuteCommand` (R70): RSV first, then OP, then ARG. Total on 32-bit words (R76). -/
def decode (w : Word) : Except Reject Instr :=
  if rsvField w ≠ 0#20 then .error (.reservedBits (rsvField w))
  else if opField w = 0x01#8 then decodeNoArg w .init
  else if opField w = 0x02#8 then decodeNoArg w .dblk
  else if opField w = 0x03#8 then decodeNoArg w .dbuf
  else if opField w = 0x10#8 then decodeNoArg w .perm
  else if opField w = 0x11#8 then decodeNoArg w .subst
  else if opField w = 0x12#8 then decodeMixcol w
  else if opField w = 0x13#8 then decodeAddrk w
  else .error (.unknownOp (opField w))

/-- A command word from its OP and ARG, with RSV = 0 (R67). -/
def commandWord (op : BitVec 8) (arg : BitVec 4) : Word := op.setWidth 32 ||| (arg.setWidth 32 <<< 8)

/-- The command word of a well-formed command (the opcode map, R69). -/
def encode : Instr → Word
  | .init => commandWord 0x01#8 0#4
  | .dblk => commandWord 0x02#8 0#4
  | .dbuf => commandWord 0x03#8 0#4
  | .perm => commandWord 0x10#8 0#4
  | .subst => commandWord 0x11#8 0#4
  | .mixcol c => commandWord 0x12#8 (c.setWidth 4)
  | .addrk r => commandWord 0x13#8 r

/-- The 20 legal command words, as R72 lists them. -/
def legalWords : List Word :=
  [0x00000001#32, 0x00000002#32, 0x00000003#32, 0x00000010#32, 0x00000011#32,
   0x00000012#32, 0x00000112#32, 0x00000212#32, 0x00000312#32] ++
  [0x00000013#32, 0x00000113#32, 0x00000213#32, 0x00000313#32, 0x00000413#32, 0x00000513#32,
   0x00000613#32, 0x00000713#32, 0x00000813#32, 0x00000913#32, 0x00000A13#32]

/-- What the decoder reads from a command whose low `nbits` bits are `w` and whose other bits are 0: the command is one
32-bit word, written to CMD whole (R66). -/
def decodeTableWord (nbits w : Nat) : Option Instr :=
  match decode (BitVec.ofNat 32 (w % 2 ^ nbits)) with
  | .ok i => some i
  | .error _ => none

end Sys2Proof
end

