-- ==== Sys2Proof/Machine/Lanes.lean ====
section
/-! DEFINITION. Bytes and words: little-endian composition (00_scope.md R13), rotation (R12), and the words of a byte
store as the host sees them (20_memory.md R45, R56). -/

namespace Sys2Proof.Machine

/-- LE32(b0, b1, b2, b3) = b0 OR (b1 << 8) OR (b2 << 16) OR (b3 << 24) (R13). -/
def le32 (b0 b1 b2 b3 : Byte) : Word :=
  b0.setWidth 32 ||| (b1.setWidth 32 <<< 8) ||| (b2.setWidth 32 <<< 16) ||| (b3.setWidth 32 <<< 24)

/-- Byte `j` of `bytes(v)`: bits 8j+7 : 8j of `v` (R13). -/
def byteOf (v : Word) (j : Nat) : Byte := v.extractLsb' (8 * j) 8

/-- `bytes(v)`, lowest byte first (R13). -/
def bytesOf (v : Word) : Vector Byte 4 := #v[byteOf v 0, byteOf v 1, byteOf v 2, byteOf v 3]

/-- ROR32(v, n) for n in 1..31 (R12). -/
def ror32 (v : Word) (n : Nat) : Word := (v >>> n) ||| (v <<< (32 - n))

/-- The host word at byte `a` of a byte store: bytes a to a+3, lowest lane first (R45). A lane past the store's end reads
0, as MIXV2[31:16] does (10_state.md R30). -/
def storeWord {n : Nat} (x : Vector Byte n) (a : Nat) : Word :=
  le32 (x.getD a 0#8) (x.getD (a + 1) 0#8) (x.getD (a + 2) 0#8) (x.getD (a + 3) 0#8)

/-- The byte store after a host write of `v` at byte `a` (R45). A lane past the store's end is ignored, as MIXV2[31:16] is
(10_state.md R30). -/
def setStoreWord {n : Nat} (x : Vector Byte n) (a : Nat) (v : Word) : Vector Byte n :=
  (((x.setIfInBounds a (byteOf v 0)).setIfInBounds (a + 1) (byteOf v 1)).setIfInBounds (a + 2) (byteOf v 2)).setIfInBounds
    (a + 3) (byteOf v 3)

end Sys2Proof.Machine
end

