-- ==== Sys2Proof/Machine/Params.lean ====
section
/-! DEFINITION. The fixed constants of the cipher shape (00_scope.md R8) and the host window's map (20_memory.md R44).
The literals are the spec's, unaudited there (93 U9; log entry 13). -/

namespace Sys2Proof.Machine

/-- BLOCK_BYTES (R8). -/
def blockBytes : Nat := 16

/-- ROUNDS: the number of round keys (R8). -/
def rounds : Nat := 11

/-- SCHED_BYTES: the length of the key schedule (R8). -/
def schedBytes : Nat := 176

/-- MIXV_USED: the mixing-vector entries, one for each computed round key (R8, R81). -/
def mixvUsed : Nat := 10

/-- WHITEN(i) = 39 − i, the key-transform constant (R8, R77). -/
def whiten (i : Nat) : Byte := BitVec.ofNat 8 (39 - i)

/-- CMD's offset (R44). -/
def offCmd : Nat := 0x000
/-- STATUS's offset (R44). -/
def offStatus : Nat := 0x004
/-- LEN's offset (R44). -/
def offLen : Nat := 0x008
/-- OUT_LEN's offset (R44). -/
def offOutLen : Nat := 0x00C
/-- KEY's base offset (R44). -/
def offKey : Nat := 0x010
/-- MIXV's base offset (R44). -/
def offMixv : Nat := 0x020
/-- BLK's base offset (R44). -/
def offBlk : Nat := 0x030
/-- SCHED's base offset (R44). -/
def offSched : Nat := 0x100
/-- SBOX[1]'s base offset (R44). -/
def offSbox : Nat := 0x800
/-- BUF's base offset (R44). -/
def offBuf : Nat := 0x1000

/-- The offset of SCHED[k] (10_state.md R32). -/
def schedOff (k : Nat) : Nat := offSched + k

/-- The offset of table entry SBOX[t][e], t in 1..8 (20_memory.md R46). -/
def sboxOff (t : Nat) (e : Byte) : Nat := offSbox + 0x100 * (t - 1) + e.toNat

/-- The offset of BUF[a] (20_memory.md R47). -/
def bufOff (a : Nat) : Nat := offBuf + a

end Sys2Proof.Machine
end

