-- ==== Sys2Proof/Machine/Cipher.lean ====
section
/-! DEFINITION. The cipher's arithmetic as pure functions of their arguments: the key-schedule expansion
(40_key_schedule.md R77-R84), the block primitives (41_block_transform.md R87-R98) and DecryptBlock
(42_engine_commands.md R103). Tables are arguments: `S t x` is SBOX[t][x], `K k` is SCHED[k]. -/

namespace Sys2Proof.Machine

/-! ## Key schedule -/

/-- The transformed key, round key 0 (R77). -/
def transformKey (key : Block) : Block := Vector.ofFn fun i : Fin 16 => key[i] ^^^ whiten i.val

/-- Schedule word q of a round key, q in 0..3: four consecutive bytes (00_scope.md R17). -/
def wordOf (k : Block) (q : Nat) : Vector Byte 4 := Vector.ofFn fun p : Fin 4 => k[(4 * q + p.val) % 16]

/-- Bytewise XOR of two schedule words. -/
def xorWord (x y : Vector Byte 4) : Vector Byte 4 := Vector.ofFn fun p : Fin 4 => x[p] ^^^ y[p]

/-- The rotated scratch word of step 3a: LE32, rotate right by 8, little-endian write-back (R78). -/
def rotated (x : Vector Byte 4) : Vector Byte 4 := bytesOf (ror32 (le32 x[0] x[1] x[2] x[3]) 8)

/-- Steps 3a to 3c: rotate, substitute through table 8, fold the mixing-vector entry into byte 0 (R78). -/
def scratchWord (S8 : Byte → Byte) (mv : Byte) (prev : Vector Byte 4) : Vector Byte 4 :=
  #v[S8 (rotated prev)[0] ^^^ mv, S8 (rotated prev)[1], S8 (rotated prev)[2], S8 (rotated prev)[3]]

/-- Step 3d: the words of the next round key, chained from the scratch word; the rotate and the substitution are not applied
again (R78, R79). -/
def chainedWord (scratch : Vector Byte 4) (k : Block) : Nat → Vector Byte 4
  | 0 => xorWord scratch (wordOf k 0)
  | q + 1 => xorWord (chainedWord scratch k q) (wordOf k (q + 1))

/-- One outer iteration of step 3: the next round key from the one before. Steps 3a to 3c are applied once, to its last
word, and step 3d chains four words (R78, R79). -/
def nextRoundKey (S8 : Byte → Byte) (mv : Byte) (k : Block) : Block :=
  Vector.ofFn fun i : Fin 16 => (chainedWord (scratchWord S8 mv (wordOf k 3)) k (i.val / 4))[i.val % 4]

/-- Round key r: the transformed key for r = 0; each next one by an outer iteration of step 3, at schedule word 4r, which
uses MIXV[r − 1] (R78, R81). Rounds above 10 are never asked for. -/
def roundKey (key : Block) (S8 : Byte → Byte) (mixv : Vector Byte 10) : Nat → Block
  | 0 => transformKey key
  | r + 1 => nextRoundKey S8 (mixv.getD r 0#8) (roundKey key S8 mixv r)

/-- Expand(KEY, S8, MIXV): the 176 schedule bytes, round key r at 16r (R78, 10_state.md R32). -/
def expand (key : Block) (S8 : Byte → Byte) (mixv : Vector Byte 10) : Vector Byte 176 :=
  Vector.ofFn fun k : Fin 176 => (roundKey key S8 mixv (k.val / 16))[k.val % 16]

/-- The indices of the 40 lookups Expand makes in table 8, in order (R82): at each of the ten rotate-and-substitute points,
the rotated bytes of the schedule word before. -/
def expandLookups (key : Block) (S8 : Byte → Byte) (mixv : Vector Byte 10) : List Byte :=
  (List.range mixvUsed).flatMap fun r => (rotated (wordOf (roundKey key S8 mixv r) 3)).toList

/-! ## Block primitives -/

/-- Permute(B) (R88): all outputs are computed from the input block. -/
def permute (B : Block) : Block := Vector.ofFn fun i : Fin 16 => B[(4 * (16 - i.val) + i.val) % 16]

/-- Substitute(B, S) (R90). -/
def substitute (S : Byte → Byte) (B : Block) : Block := Vector.ofFn fun i : Fin 16 => S B[i]

/-- The position-to-table map T (R91): the table number of a position, or none for the identity. -/
def tableAt (p : Nat) : Option Nat :=
  if p = 2 then some 6
  else if p = 3 then some 5
  else if p = 9 then some 4
  else if p = 11 then some 3
  else if p = 13 then some 2
  else if p = 14 then some 1
  else none

/-- T[p](x) (R91). -/
def tMap (S : Nat → Byte → Byte) (p : Nat) (x : Byte) : Byte :=
  match tableAt p with
  | some t => S t x
  | none => x

/-- The order vector of MixColumn (R92). -/
def mixOrder : Vector Nat 4 := #v[14, 11, 13, 9]

/-- The position used for input j in output o: order[(4 − o + j) mod 4] (R92). -/
def mixPosition (o j : Fin 4) : Nat := mixOrder[(4 - o.val + j.val) % 4]

/-- Column c of a block, latched (R87, R94). -/
def columnBytes (B : Block) (c : Fin 4) : Vector Byte 4 := Vector.ofFn fun j : Fin 4 => B[4 * c.val + j.val]

/-- out[o] of MixColumn from the four latched inputs (R92). -/
def mixOut (S : Nat → Byte → Byte) (x : Vector Byte 4) (o : Fin 4) : Byte :=
  tMap S (mixPosition o 0) x[0] ^^^ tMap S (mixPosition o 1) x[1] ^^^ tMap S (mixPosition o 2) x[2] ^^^ tMap S (mixPosition o 3) x[3]

/-- MixColumn(B, 4c): column c is replaced, the other 12 bytes keep (R92). -/
def mixColumn (S : Nat → Byte → Byte) (c : Fin 4) (B : Block) : Block :=
  Vector.ofFn fun i : Fin 16 =>
    if i.val / 4 = c.val then mixOut S (columnBytes B c) ⟨i.val % 4, Nat.mod_lt _ (by decide)⟩ else B[i]

/-- The table lookups of MixColumn on column c: for each output and each input, the table and the entry (R92, R95). -/
def mixLookups (c : Fin 4) (B : Block) : List (Nat × Byte) :=
  [0, 1, 2, 3].flatMap fun o : Fin 4 => [0, 1, 2, 3].filterMap fun j : Fin 4 =>
    (tableAt (mixPosition o j)).map fun t => (t, (columnBytes B c)[j])

/-- MixAll(B) (R96). -/
def mixAll (S : Nat → Byte → Byte) (B : Block) : Block := mixColumn S 3 (mixColumn S 2 (mixColumn S 1 (mixColumn S 0 B)))

/-- AddRoundKey(B, r) (R97). -/
def addRoundKey (K : Nat → Byte) (r : Nat) (B : Block) : Block := Vector.ofFn fun i : Fin 16 => B[i] ^^^ K (16 * r + i.val)

/-! ## DecryptBlock -/

/-- The loop of DecryptBlock from round r down to 0, with no diffusion after round 0 (R103, steps 3). -/
def decryptRounds (S : Nat → Byte → Byte) (K : Nat → Byte) : Nat → Block → Block
  | 0, B => addRoundKey K 0 (substitute (S 7) (permute B))
  | r + 1, B => decryptRounds S K r (mixAll S (addRoundKey K (r + 1) (substitute (S 7) (permute B))))

/-- DecryptBlock(B) as a function of tables that hold a value everywhere (R103). -/
def decryptBlock (S : Nat → Byte → Byte) (K : Nat → Byte) (B : Block) : Block :=
  decryptRounds S K (rounds - 2) (addRoundKey K (rounds - 1) B)

end Sys2Proof.Machine
end

