-- ==== Sys2Proof/Config.lean ====
section
/-! DEFINITION. What an implementation fixes and what the spec leaves free: uninterpreted constants, so that a
statement holds whatever they are. -/

namespace Sys2Proof

/-- How many 16-byte blocks the buffer RAM has, less one, read modulo 2^27. Uninterpreted: the spec leaves the size of
the buffer RAM open (00_scope.md R9). -/
opaque Config.bufBlocks : Nat

/-- BUF_BYTES of the machine that `State.reset` describes (R9, 93 U7). As `Config.bufBlocks` ranges over the naturals this
ranges over exactly the admissible sizes: the multiples of 16 from 16 to 2^31 (log entry 6). -/
def Config.bufBytes : Nat := 16 * (Config.bufBlocks % 2 ^ 27 + 1)

/-- The free bytes that host reads of unwritten bytes draw (10_state.md R40, 93 U1): draw number `n` gives `freeByte n`,
and nothing constrains it (log entry 4). -/
opaque Config.freeByte : Nat → Byte

end Sys2Proof
end

