-- ==== Sys2Proof/Machine/State.lean ====
section
/-! DEFINITION. The engine's state (10_state.md R22), the host's inputs, the reasons a step can stop, and the state after
reset (R41). -/

namespace Sys2Proof.Machine

/-- The byte stores SCHED, SBOX[1..8] and BUF, keyed by byte offset in the host window (20_memory.md R44-R47), in one
canonical form: offsets strictly rising. An unlisted offset holds no value: nothing has written it since reset (R40). -/
abbrev Memory := List Host.Cell

/-- What the outside world does to the engine (00_scope.md R18): one access of the host, or the reset input. -/
inductive HostEvent where
  /-- A host read of `bits` bits at byte offset `off`; the engine accepts 32 bits only (20_memory.md R49). -/
  | read (bits : Nat) (off : Word)
  /-- A host write of `bits` bits at byte offset `off`; `v` is the word written when `bits` is 32. -/
  | write (bits : Nat) (off : Word) (v : Word)
  /-- The reset input is asserted (70_reset_and_hazards.md R135). -/
  | reset
  deriving DecidableEq, Repr

/-- The state of the engine (10_state.md R22), its size parameter (00_scope.md R9), and three fields of the model's own
that carry the host's side of a run (30_encoding.md R74). The engine has no program counter and no general registers
(R20, R21). -/
structure State where
  /-- STATUS.READY, bit 0 of STATUS (R23, R24). -/
  ready : Bool
  /-- STATUS.ERR, bits 7:4 of STATUS (R23, R25). -/
  err : BitVec 4
  /-- LEN (R27). -/
  len : Word
  /-- OUT_LEN (R28). -/
  outLen : Word
  /-- KEY[0..15], the master key (R29). -/
  key : Vector Byte 16
  /-- MIXV[0..9], the mixing vector (R30). -/
  mixv : Vector Byte 10
  /-- BLK[0..15], the block register (R31). -/
  blk : Vector Byte 16
  /-- SCHED (R32), SBOX[1..8] (R34) and BUF (R37), by byte offset in the window. -/
  mem : Memory
  /-- BUF_BYTES, the size of the buffer RAM: a parameter, which no step changes (R9, R37; log entry 6). -/
  bufBytes : Nat
  /-- The model's own: the host's accesses still to come, oldest first (log entry 1). -/
  pending : List HostEvent
  /-- The model's own: the words the host's reads have returned, oldest first (log entry 3). -/
  readLog : List Word
  /-- The model's own: numbers the free bytes of host reads of unwritten bytes (log entry 4). -/
  draws : Nat
  deriving DecidableEq, Repr

/-- The result codes of STATUS.ERR (60_exceptions.md R116). -/
inductive ErrCode where
  /-- The command succeeded. -/
  | ok
  /-- DBLK, DBUF or ADDRK while STATUS.READY = 0 (R117). -/
  | notInitialized
  /-- DBUF with LEN = 0, LEN mod 16 ≠ 0 or LEN > BUF_BYTES (R118). -/
  | invalidBlockLength
  /-- DBUF whose final decrypted byte is outside 1..16 or above LEN (R119). -/
  | invalidPadding
  /-- A CMD write whose word is none of the 20 legal commands (R120). -/
  | illegalCommand
  deriving DecidableEq, Repr

/-- Why a run stops. Errors of commands are no faults: they are results in STATUS.ERR (R122). -/
inductive Fault where
  /-- Raised by a host access that is not 32 bits wide: a bus error, on which the spec's model faults (20_memory.md R49,
  93 U4). Safe: the engine's state would not change, and how the host goes on is the platform's (R121). -/
  | busWidth (bits : Nat)
  /-- Raised by a host access whose offset is not a multiple of 4: a bus error, on which the spec's model faults (R50,
  93 U4). Safe, as `busWidth`. -/
  | busMisaligned (off : Word)
  /-- Raised by INIT, SUBST, MIXCOL, DBLK and DBUF at a lookup of an SBOX entry that is unwritten since reset, at this
  window offset: the spec's model faults (10_state.md R40, 93 U2). Safe. -/
  | unwrittenSbox (off : Nat)
  /-- Raised by ADDRK, DBLK and DBUF at a read of an unwritten SCHED byte (R40). Safe; unreachable in any run, because
  READY = 1 implies that INIT wrote SCHED (93 U2). -/
  | unwrittenSched (off : Nat)
  /-- Raised by DBUF at a read of a BUF byte that is unwritten since reset (R40, 93 U2). Safe. -/
  | unwrittenBuf (off : Nat)
  deriving DecidableEq, Repr

/-- Why a command has no meaning in the model. No arm of `exec` refuses now. -/
inductive Refusal where
  /-- Raised by an arm of `exec` whose command is not modelled yet. Safe: the run stops. -/
  | notModelled (mnemonic : String)
  deriving DecidableEq, Repr

/-- The machine right after reset (10_state.md R41, 70_reset_and_hazards.md R135): READY, ERR, LEN and OUT_LEN are 0; KEY,
MIXV and BLK are all zero; SCHED, SBOX and BUF are unwritten. Of the model's own fields, no host access is waiting, no
word has been read and no free byte drawn (log entry 9). -/
def State.reset : State where
  ready := false
  err := 0#4
  len := 0#32
  outLen := 0#32
  key := #v[0#8, 0#8, 0#8, 0#8, 0#8, 0#8, 0#8, 0#8, 0#8, 0#8, 0#8, 0#8, 0#8, 0#8, 0#8, 0#8]
  mixv := #v[0#8, 0#8, 0#8, 0#8, 0#8, 0#8, 0#8, 0#8, 0#8, 0#8]
  blk := #v[0#8, 0#8, 0#8, 0#8, 0#8, 0#8, 0#8, 0#8, 0#8, 0#8, 0#8, 0#8, 0#8, 0#8, 0#8, 0#8]
  mem := []
  bufBytes := Config.bufBytes
  pending := []
  readLog := []
  draws := 0

end Sys2Proof.Machine
end

