-- ==== Sys2Proof/Machine/Ops.lean ====
section
/-! DEFINITION. Named operations over the byte stores and the registers, and the one shared operation of a failing command
(60_exceptions.md R122). -/

namespace Sys2Proof.Machine

/-! ## The byte stores -/

/-- The canonical form of the byte stores: offsets strictly rising. -/
def Memory.wf : Memory → Bool
  | [] => true
  | [_] => true
  | c :: d :: m => decide (c.1 < d.1) && Memory.wf (d :: m)

/-- The byte at an offset, or no value if nothing has written it since reset (10_state.md R40). -/
def Memory.read : Memory → Nat → Option Byte
  | [], _ => none
  | c :: m, a => if c.1 = a then some c.2 else Memory.read m a

/-- Write one byte, keeping the canonical form. -/
def Memory.write : Memory → Nat → Byte → Memory
  | [], a, b => [(a, b)]
  | c :: m, a, b =>
    if a < c.1 then (a, b) :: c :: m
    else if c.1 = a then (a, b) :: m
    else c :: Memory.write m a b

/-- Write consecutive bytes from an offset up. -/
def Memory.writeBytes : Memory → Nat → List Byte → Memory
  | m, _, [] => m
  | m, a, b :: bs => Memory.writeBytes (m.write a b) (a + 1) bs

/-- Has the byte at this offset been written since reset (R40)? -/
def Memory.written (m : Memory) (a : Nat) : Bool := (m.read a).isSome

/-- Table t as a total function on bytes. Where an entry is unwritten the value is 0, which no command's result can
hold: each command first checks, by `requireWritten`, every entry it looks up (R40). -/
def Memory.sbox (m : Memory) (t : Nat) (x : Byte) : Byte := (m.read (sboxOff t x)).getD 0#8

/-- SCHED[k], likewise total behind the check of `requireWritten` (R32, R40). -/
def Memory.sched (m : Memory) (k : Nat) : Byte := (m.read (schedOff k)).getD 0#8

/-- BUF[a], likewise total behind the check of `requireWritten` (R37, R40). -/
def Memory.buf (m : Memory) (a : Nat) : Byte := (m.read (bufOff a)).getD 0#8

/-- A command reads the bytes at these offsets, in this order: the first one that is unwritten since reset stops the run
(10_state.md R40, 93 U2; log entry 5). -/
def requireWritten (m : Memory) (stop : Nat → Fault) : List Nat → Except Fault Unit
  | [] => .ok ()
  | a :: rest =>
    match m.read a with
    | some _ => requireWritten m stop rest
    | none => .error (stop a)

/-! ## The registers -/

/-- STATUS.ERR <- e. -/
def State.setErr (s : State) (e : BitVec 4) : State := { s with err := e }

/-- STATUS.READY <- b. -/
def State.setReady (s : State) (b : Bool) : State := { s with ready := b }

/-- LEN <- v. -/
def State.setLen (s : State) (v : Word) : State := { s with len := v }

/-- OUT_LEN <- v. -/
def State.setOutLen (s : State) (v : Word) : State := { s with outLen := v }

/-- KEY <- k. -/
def State.setKey (s : State) (k : Vector Byte 16) : State := { s with key := k }

/-- MIXV <- m. -/
def State.setMixv (s : State) (m : Vector Byte 10) : State := { s with mixv := m }

/-- BLK <- b. -/
def State.setBlk (s : State) (b : Vector Byte 16) : State := { s with blk := b }

/-- The byte stores become m. -/
def State.setMem (s : State) (m : Memory) : State := { s with mem := m }

/-- The host's accesses still to come become p. -/
def State.setPending (s : State) (p : List HostEvent) : State := { s with pending := p }

/-- A host read returned v: it is logged, and the four free bytes that its four lanes may have drawn are used up. -/
def State.logRead (s : State) (v : Word) : State := { s with readLog := s.readLog ++ [v], draws := s.draws + 4 }

/-! ## The result of a command -/

/-- The code of an error in STATUS.ERR (60_exceptions.md R116). -/
def ErrCode.code : ErrCode → BitVec 4
  | .ok => 0#4
  | .notInitialized => 1#4
  | .invalidBlockLength => 2#4
  | .invalidPadding => 3#4
  | .illegalCommand => 4#4

/-- `raise E` (00_scope.md R15, 60_exceptions.md R122): STATUS.ERR holds E's code, and nothing else changes. There is no
handler to enter, nothing is saved, and there is no return operation: the next CMD write overwrites ERR (R125). -/
def State.raise (s : State) (e : ErrCode) : State := s.setErr e.code

/-- A command succeeds: STATUS.ERR <- 0 (10_state.md R25). -/
def State.succeed (s : State) : State := s.setErr ErrCode.ok.code

/-- DBUF fails: OUT_LEN <- 0, then `raise E` (R122, 42_engine_commands.md R112). -/
def State.raiseDbuf (s : State) (e : ErrCode) : State := (s.setOutLen 0#32).raise e

end Sys2Proof.Machine
end

