-- ==== Sys2Proof/Machine/Flags.lean ====
section
/-! DEFINITION. The flags of the engine: STATUS.READY and STATUS.ERR, its only ones (10_state.md R39), and the STATUS
register that shows them. -/

namespace Sys2Proof.Machine

/-- The STATUS register as the host reads it: zext_32 of ERR, 000, READY, most significant first (10_state.md R23,
20_memory.md R51). -/
def statusWord (s : State) : Word :=
  (s.err.setWidth 32 <<< 4) ||| (BitVec.ofBool s.ready).setWidth 32

/-- A host write to KEY, MIXV or SBOX clears STATUS.READY, whatever value it writes (R24, R52). -/
def State.configWritten (s : State) : State := s.setReady false

/-- INIT sets STATUS.READY (R24, 40_key_schedule.md R85). -/
def State.scheduleValid (s : State) : State := s.setReady true

end Sys2Proof.Machine
end

