-- ==== Sys2Proof/Machine/KeySchedule.lean ====
section
/-! DEFINITION. The command INIT (40_key_schedule.md R85). -/

namespace Sys2Proof.Machine

/-- The offsets of the table-8 entries that INIT looks up, in order (R82). -/
def initLookups (s : State) : List Nat := (expandLookups s.key (s.mem.sbox 8) s.mixv).map (sboxOff 8)

/-- The schedule INIT computes from the current KEY, SBOX[8] and MIXV (R78, R85). -/
def initSchedule (s : State) : Vector Byte 176 := expand s.key (s.mem.sbox 8) s.mixv

/-- INIT (R85): SCHED <- Expand(KEY, SBOX[8], MIXV), READY <- 1, ERR <- 0; KEY keeps (R77). A lookup of an unwritten SBOX[8]
entry stops the run (10_state.md R40). -/
def execInit (s : State) : Host.Outcome State Fault Refusal :=
  match requireWritten s.mem .unwrittenSbox (initLookups s) with
  | .error f => .fault f
  | .ok _ => .next ((s.setMem (s.mem.writeBytes offSched (initSchedule s).toList)).scheduleValid).succeed

end Sys2Proof.Machine
end

