-- ==== Sys2Proof/Machine/Operands.lean ====
section
/-! DEFINITION. Operand forms of the commands: the ARG field's two uses (30_encoding.md R68), and 16-byte reads and writes
of BUF (00_scope.md R15). -/

namespace Sys2Proof.Machine

/-- The column number of MIXCOL, in 0..3 (R68). -/
def columnOf (c : BitVec 2) : Fin 4 := c.toFin

/-- The byte offset of a column in a block, 4·c (R68, R87). -/
def columnOffset (c : Fin 4) : Nat := 4 * c.val

/-- The byte offset of round key r in SCHED, 16·r (R68, 10_state.md R32). -/
def roundKeyOffset (r : Nat) : Nat := 16 * r

/-- Is ADDRK's ARG a round-key number (R68: 11 to 15 are illegal)? -/
def legalRoundKey (r : BitVec 4) : Bool := decide (r.toNat < rounds)

/-- The offsets of the 16 bytes `BUF[a..a+16)`. -/
def bufBlockOffsets (a : Nat) : List Nat := (List.range blockBytes).map fun i => bufOff (a + i)

/-- `MemRead(a, 16)` (R15): the block `BUF[a..a+16)`, every byte of which must be written (10_state.md R40). -/
def memReadBlock (m : Memory) (a : Nat) : Except Fault Block := do
  requireWritten m .unwrittenBuf (bufBlockOffsets a)
  return Vector.ofFn fun i : Fin 16 => m.buf (a + i.val)

/-- `MemWrite(a, 16, B)` (R15). -/
def memWriteBlock (m : Memory) (a : Nat) (B : Block) : Memory := m.writeBytes (bufOff a) B.toList

end Sys2Proof.Machine
end

