-- ==== Sys2Proof/Machine/Transform.lean ====
section
/-! DEFINITION. The block primitives on the engine's stores, and the diagnostic commands PERM, SUBST, MIXCOL and ADDRK
(41_block_transform.md R99-R102). -/

namespace Sys2Proof.Machine

/-- Substitute(B, SBOX[7]) on the engine's table: the 16 entries indexed must be written (R90, R100). -/
def substituteStep (m : Memory) (B : Block) : Except Fault Block := do
  requireWritten m .unwrittenSbox (B.toList.map (sboxOff 7))
  return substitute (m.sbox 7) B

/-- MixColumn(B, 4c) on the engine's tables: the entries indexed must be written (R92, R95, R101). -/
def mixColumnStep (m : Memory) (c : Fin 4) (B : Block) : Except Fault Block := do
  requireWritten m .unwrittenSbox ((mixLookups c B).map fun l => sboxOff l.1 l.2)
  return mixColumn m.sbox c B

/-- MixAll(B): columns 0, 1, 2, 3 in that order (R96). -/
def mixAllStep (m : Memory) (B : Block) : Except Fault Block := do
  let B ← mixColumnStep m 0 B
  let B ← mixColumnStep m 1 B
  let B ← mixColumnStep m 2 B
  mixColumnStep m 3 B

/-- The offsets of round key r, `SCHED[16r..16r+16)` (10_state.md R32). -/
def roundKeyOffsets (r : Nat) : List Nat := (List.range blockBytes).map fun i => schedOff (roundKeyOffset r + i)

/-- AddRoundKey(B, r) on the engine's schedule (R97). -/
def addRoundKeyStep (m : Memory) (r : Nat) (B : Block) : Except Fault Block := do
  requireWritten m .unwrittenSched (roundKeyOffsets r)
  return addRoundKey m.sched r B

/-- A primitive's result goes to BLK and the command succeeds; a read of an unwritten byte stops the run. -/
def finishBlk (s : State) (r : Except Fault Block) : Host.Outcome State Fault Refusal :=
  match r with
  | .error f => .fault f
  | .ok B => .next (s.setBlk B).succeed

/-- PERM (R99): needs no READY. -/
def execPerm (s : State) : Host.Outcome State Fault Refusal := .next (s.setBlk (permute s.blk)).succeed

/-- SUBST (R100): needs no READY. -/
def execSubst (s : State) : Host.Outcome State Fault Refusal := finishBlk s (substituteStep s.mem s.blk)

/-- MIXCOL c (R101): needs no READY. -/
def execMixcol (c : BitVec 2) (s : State) : Host.Outcome State Fault Refusal :=
  finishBlk s (mixColumnStep s.mem (columnOf c) s.blk)

/-- ADDRK r (R102): NotInitialized while READY = 0. A round-key number above 10, which the decoder never gives, is
IllegalCommand as in the decoder's own arm (30_encoding.md R70; log entry 11). -/
def execAddrk (r : BitVec 4) (s : State) : Host.Outcome State Fault Refusal :=
  if legalRoundKey r = false then .next (s.raise .illegalCommand)
  else if s.ready = false then .next (s.raise .notInitialized)
  else finishBlk s (addRoundKeyStep s.mem r.toNat s.blk)

end Sys2Proof.Machine
end

