-- ==== Sys2Proof/Machine/Sequencer.lean ====
section
/-! DEFINITION. The engine sequencer: DecryptBlock on the engine's stores, DBLK and DBUF (42_engine_commands.md). -/

namespace Sys2Proof.Machine

/-- The loop of DecryptBlock from round r down to 0 (R103): permute, substitute, add the round key and, but for round 0,
mix all columns. -/
def decryptRoundsStep (m : Memory) : Nat → Block → Except Fault Block
  | 0, B => do
    let B ← substituteStep m (permute B)
    addRoundKeyStep m 0 B
  | r + 1, B => do
    let B ← substituteStep m (permute B)
    let B ← addRoundKeyStep m (r + 1) B
    let B ← mixAllStep m B
    decryptRoundsStep m r B

/-- DecryptBlock(B) on the engine's SCHED and tables (R103): round key 10 first, then rounds 9 down to 0. -/
def decryptBlockStep (m : Memory) (B : Block) : Except Fault Block := do
  let B ← addRoundKeyStep m (rounds - 1) B
  decryptRoundsStep m (rounds - 2) B

/-- DBLK (R106): NotInitialized while READY = 0, with BLK unchanged; else BLK is decrypted in place. -/
def execDblk (s : State) : Host.Outcome State Fault Refusal :=
  if s.ready = false then .next (s.raise .notInitialized)
  else finishBlk s (decryptBlockStep s.mem s.blk)

/-- DBUF's length check fails (R108). -/
def badLength (s : State) : Bool :=
  decide (s.len.toNat = 0) || decide (s.len.toNat % 16 ≠ 0) || decide (s.len.toNat > s.bufBytes)

/-- The pad length n is invalid for a buffer of L bytes (R111). -/
def badPadding (n L : Nat) : Bool := decide (n < 1) || decide (n > 16) || decide (n > L)

/-- The hidden scratch block of DBUF's padding pre-check: the last block decrypted, with BUF not written (R110). -/
def lastBlockStep (s : State) : Except Fault Block := do
  let B ← memReadBlock s.mem (s.len.toNat - 16)
  decryptBlockStep s.mem B

/-- DBUF's loop: `count` blocks from block k up, each decrypted in place and on its own (R112, R113). -/
def decryptBlocksStep : (count k : Nat) → Memory → Except Fault Memory
  | 0, _, m => .ok m
  | count + 1, k, m => do
    let B ← memReadBlock m (16 * k)
    let B' ← decryptBlockStep m B
    decryptBlocksStep count (k + 1) (memWriteBlock m (16 * k) B')

/-- DBUF after its length and ready checks: the padding pre-check, then the loop, OUT_LEN <- L − n and ERR <- 0 (R112). -/
def dbufDecrypt (s : State) : Host.Outcome State Fault Refusal :=
  match lastBlockStep s with
  | .error f => .fault f
  | .ok t =>
    if badPadding t[15].toNat s.len.toNat then .next (s.raiseDbuf .invalidPadding)
    else
      match decryptBlocksStep (s.len.toNat / 16) 0 s.mem with
      | .error f => .fault f
      | .ok m => .next ((s.setMem m).setOutLen (BitVec.ofNat 32 (s.len.toNat - t[15].toNat))).succeed

/-- DBUF (R112): InvalidBlockLength first, then NotInitialized, then InvalidPadding (60_exceptions.md R124). -/
def execDbuf (s : State) : Host.Outcome State Fault Refusal :=
  if badLength s then .next (s.raiseDbuf .invalidBlockLength)
  else if s.ready = false then .next (s.raiseDbuf .notInitialized)
  else dbufDecrypt s

end Sys2Proof.Machine
end

