-- ==== Sys2Proof/Machine/Dispatch.lean ====
section
/-! DEFINITION. Which meaning each command has: the arms of ExecuteCommand (30_encoding.md R70). -/

namespace Sys2Proof.Machine

open Sys2Proof

def exec (i : Instr) (s : State) : Host.Outcome State Fault Refusal :=
  match i with
  | .init => Sys2Proof.Machine.execInit s
  | .dblk => Sys2Proof.Machine.execDblk s
  | .dbuf => Sys2Proof.Machine.execDbuf s
  | .perm => Sys2Proof.Machine.execPerm s
  | .subst => Sys2Proof.Machine.execSubst s
  | .mixcol c => Sys2Proof.Machine.execMixcol c s
  | .addrk r => Sys2Proof.Machine.execAddrk r s

end Sys2Proof.Machine
end

