-- ==== Sys2Proof/Machine/Window.lean ====
section
/-! DEFINITION. The host window: ExecuteCommand (30_encoding.md R70), HostRead (20_memory.md R51), HostWrite (R52), the
access rules (R49, R50) and the reset input (70_reset_and_hazards.md R135). -/

namespace Sys2Proof.Machine

/-- ExecuteCommand(v) (R70): a word that is no command sets ERR to IllegalCommand and changes nothing else (R71). -/
def executeCommand (v : Word) (s : State) : Host.Outcome State Fault Refusal :=
  match decode v with
  | .ok i => exec i s
  | .error _ => .next (s.raise .illegalCommand)

/-- The byte that lane j of a host read sees at an offset of SCHED, SBOX or BUF: its value, or a fresh free byte where
nothing has written it since reset (10_state.md R40, 93 U1; log entry 4). -/
def hostByte (s : State) (a j : Nat) : Byte := (s.mem.read (a + j)).getD (Config.freeByte (s.draws + j))

/-- The host word at an offset of SCHED, SBOX or BUF (R45). -/
def hostStoreWord (s : State) (a : Nat) : Word := le32 (hostByte s a 0) (hostByte s a 1) (hostByte s a 2) (hostByte s a 3)

/-- Does this offset lie in BUF (R44)? -/
def inBuf (s : State) (a : Nat) : Bool := decide (offBuf ≤ a) && decide (a < offBuf + s.bufBytes)

/-- Does this offset lie in SBOX[1..8] (R44)? -/
def inSbox (a : Nat) : Bool := decide (offSbox ≤ a) && decide (a ≤ 0xFFC)

/-- Does this offset lie in SCHED (R44)? -/
def inSched (a : Nat) : Bool := decide (offSched ≤ a) && decide (a ≤ 0x1AC)

/-- Does this offset lie in KEY (R44)? -/
def inKey (a : Nat) : Bool := decide (offKey ≤ a) && decide (a ≤ 0x01C)

/-- Is this offset MIXV0, MIXV1 or MIXV2 (R44)? -/
def inMixv (a : Nat) : Bool := decide (offMixv ≤ a) && decide (a ≤ 0x028)

/-- Does this offset lie in BLK (R44)? -/
def inBlk (a : Nat) : Bool := decide (offBlk ≤ a) && decide (a ≤ 0x03C)

/-- HostRead(off) at a word-aligned offset (R51). MIXV2[31:16] read 0 (R48). -/
def hostRead (s : State) (a : Nat) : Word :=
  if a = offCmd then 0#32
  else if a = offStatus then statusWord s
  else if a = offLen then s.len
  else if a = offOutLen then s.outLen
  else if inKey a then storeWord s.key (a - offKey)
  else if inMixv a then storeWord s.mixv (a - offMixv)
  else if inBlk a then storeWord s.blk (a - offBlk)
  else if inSched a then hostStoreWord s a
  else if inSbox a then hostStoreWord s a
  else if inBuf s a then hostStoreWord s a
  else 0#32

/-- HostWrite(off, v) at a word-aligned offset (R52). STATUS, OUT_LEN, SCHED and reserved offsets ignore it. -/
def hostWrite (s : State) (a : Nat) (v : Word) : Host.Outcome State Fault Refusal :=
  if a = offCmd then executeCommand v s
  else if a = offLen then .next (s.setLen v)
  else if inKey a then .next (s.setKey (setStoreWord s.key (a - offKey) v)).configWritten
  else if inMixv a then .next (s.setMixv (setStoreWord s.mixv (a - offMixv) v)).configWritten
  else if inBlk a then .next (s.setBlk (setStoreWord s.blk (a - offBlk) v))
  else if inSbox a then .next (s.setMem (s.mem.writeBytes a (bytesOf v).toList)).configWritten
  else if inBuf s a then .next (s.setMem (s.mem.writeBytes a (bytesOf v).toList))
  else .next s

/-- The reset input (R135): every piece of the engine's state takes its reset value (10_state.md R41). The size of the
buffer RAM is a parameter and keeps; the host's own side of the run goes on (log entry 10). -/
def resetEngine (s : State) : State :=
  { State.reset with bufBytes := s.bufBytes, pending := s.pending, readLog := s.readLog, draws := s.draws }

/-- The access rules of R49 and R50: 32 bits wide and word-aligned, or a bus error, on which the model faults. -/
def accessFault (bits : Nat) (off : Word) : Option Fault :=
  if bits ≠ 32 then some (.busWidth bits)
  else if off.toNat % 4 ≠ 0 then some (.busMisaligned off)
  else none

/-- One event at the host port or the reset input. -/
def hostEvent (e : HostEvent) (s : State) : Host.Outcome State Fault Refusal :=
  match e with
  | .read bits off =>
    match accessFault bits off with
    | some f => .fault f
    | none => .next (s.logRead (hostRead s off.toNat))
  | .write bits off v =>
    match accessFault bits off with
    | some f => .fault f
    | none => hostWrite s off.toNat v
  | .reset => .next (resetEngine s)

/-- The host's next access is taken and carried out to completion (R59). With no access waiting nothing happens: the engine
never acts on its own (00_scope.md R18; log entry 2). -/
def nextAccess (s : State) : Host.Outcome State Fault Refusal :=
  match s.pending with
  | [] => .next s
  | e :: rest => hostEvent e (s.setPending rest)

/-- The state in which the host's next access is a write of the command word v to CMD (R66; log entry 1). -/
def State.issue (s : State) (v : Word) : State := s.setPending (.write 32 (BitVec.ofNat 32 offCmd) v :: s.pending)

end Sys2Proof.Machine
end

