-- ==== Sys2Proof/Machine/Step.lean ====
section
/-! DEFINITION. One step of the machine: the host's next access, to completion (20_memory.md R59). -/

namespace Sys2Proof.Machine

/-- One step: the first waiting host access, or nothing where none waits. -/
def step (s : State) : Host.Outcome State Fault Refusal := nextAccess s

/-- `s` with the command whose low `nbits` bits are `w`, the others 0, as the host's very next access: a 32-bit write of it
to CMD. The engine fetches nothing (10_state.md R21): this write stands for the host that issues the command. -/
def State.withFetchWord (s : State) (nbits w : Nat) : State := s.issue (BitVec.ofNat 32 (w % 2 ^ nbits))

end Sys2Proof.Machine
end

