-- ==== Sys2Proof/Machine/Assembler.lean ====
section
/-! DEFINITION. The notation of host programs (30_encoding.md R73-R76): lines and the host accesses they stand for, the
pseudo-instructions, the text of the basic forms, and the disassembler. No step of the machine uses this file. -/

namespace Sys2Proof.Machine

/-- One line of a host program (R73). -/
inductive Line where
  /-- `wr OFF, VAL`. -/
  | wr (off v : Word)
  /-- `rd OFF`. -/
  | rd (off : Word)
  /-- `rd OFF => VAL`: a read, with the value the rules give. -/
  | rdIs (off v : Word)
  /-- A command by its mnemonic: `wr 0x000, W` with W its command word. -/
  | cmd (i : Instr)
  deriving DecidableEq, Repr

/-- The host access a line stands for (R73). -/
def Line.event : Line → HostEvent
  | .wr off v => .write 32 off v
  | .rd off => .read 32 off
  | .rdIs off _ => .read 32 off
  | .cmd i => .write 32 (BitVec.ofNat 32 offCmd) (encode i)

/-- The host's accesses of a straight-line program (R74). -/
def accesses (p : List Line) : List HostEvent := p.map Line.event

/-! ## Pseudo-instructions (R75) -/

/-- Write the words of a list of bytes from an offset up; the list's length is a multiple of 4, or its last word is filled
with 0. -/
def loadWords (base : Nat) (bs : List Byte) : List Line :=
  (List.range ((bs.length + 3) / 4)).map fun k =>
    .wr (BitVec.ofNat 32 (base + 4 * k))
      (le32 (bs.getD (4 * k) 0#8) (bs.getD (4 * k + 1) 0#8) (bs.getD (4 * k + 2) 0#8) (bs.getD (4 * k + 3) 0#8))

/-- `ldkey b0 .. b15`. -/
def ldkey (k : Vector Byte 16) : List Line := loadWords offKey k.toList

/-- `ldmixv m0 .. m9`. -/
def ldmixv (m : Vector Byte 10) : List Line := loadWords offMixv m.toList

/-- `ldblk b0 .. b15`. -/
def ldblk (b : Vector Byte 16) : List Line := loadWords offBlk b.toList

/-- `ldsbox t, f`, t in 1..8. -/
def ldsbox (t : Nat) (f : Byte → Byte) : List Line :=
  loadWords (sboxOff t 0#8) ((List.range 256).map fun x => f (BitVec.ofNat 8 x))

/-- `ldbuf a, b0 .. b(n-1)`, a and n multiples of 4. -/
def ldbuf (a : Nat) (bs : List Byte) : List Line := loadWords (bufOff a) bs

/-- `setlen n`. -/
def setlen (n : Word) : List Line := [.wr (BitVec.ofNat 32 offLen) n]

/-- `rdstatus`. -/
def rdstatus : List Line := [.rd (BitVec.ofNat 32 offStatus)]

/-- The commands of `MIX`. -/
def mixCommands : List Instr := [.mixcol 0#2, .mixcol 1#2, .mixcol 2#2, .mixcol 3#2]

/-- The commands of `ROUND r`, r in 1..9. -/
def roundCommands (r : Nat) : List Instr := [.perm, .subst, .addrk (BitVec.ofNat 4 r)] ++ mixCommands

/-- The commands of `LAST`. -/
def lastCommands : List Instr := [.perm, .subst, .addrk 0#4]

/-- The commands of `ROUND r; ROUND (r − 1); ...; ROUND 1; LAST`. -/
def roundsCommands : Nat → List Instr
  | 0 => lastCommands
  | r + 1 => roundCommands (r + 1) ++ roundsCommands r

/-- `ADDRK 10; ROUND 9; ...; ROUND 1; LAST`, the sequence that decrypts BLK as DBLK does (R75, 42_engine_commands.md R105). -/
def decryptCommands : List Instr := .addrk 10#4 :: roundsCommands 9

/-! ## The text of a line (R73) -/

/-- Split a line at blanks and commas. -/
def tokens : List Char → List Char → List (List Char)
  | [], acc => if acc = [] then [] else [acc.reverse]
  | c :: cs, acc =>
    if c = ' ' ∨ c = ',' ∨ c = '\t' then (if acc = [] then tokens cs [] else acc.reverse :: tokens cs [])
    else tokens cs (c :: acc)

/-- A line without its comment, which `#` starts. -/
def uncomment : List Char → List Char
  | [] => []
  | c :: cs => if c = '#' then [] else c :: uncomment cs

/-- The value of a digit, hex digits of either case. -/
def digitValue (c : Char) : Option Nat :=
  let n := c.toNat
  if 48 ≤ n ∧ n ≤ 57 then some (n - 48)
  else if 97 ≤ n ∧ n ≤ 102 then some (n - 87)
  else if 65 ≤ n ∧ n ≤ 70 then some (n - 55)
  else none

/-- A digit string in a base, most significant digit first. -/
def digitsValue (base : Nat) : Nat → List Char → Option Nat
  | acc, [] => some acc
  | acc, c :: cs =>
    match digitValue c with
    | some d => if d < base then digitsValue base (base * acc + d) cs else none
    | none => none

/-- A 32-bit number: hex after `0x`, else decimal. -/
def number (t : List Char) : Option Word :=
  let v := match t with
    | '0' :: 'x' :: d :: ds => digitsValue 16 0 (d :: ds)
    | d :: ds => digitsValue 10 0 (d :: ds)
    | [] => none
  match v with
  | some n => if n < 2 ^ 32 then some (BitVec.ofNat 32 n) else none
  | none => none

/-- A command with no argument, by its mnemonic in small letters. -/
def plainCommand (t : List Char) : Option Instr :=
  if t = ['i', 'n', 'i', 't'] then some .init
  else if t = ['d', 'b', 'l', 'k'] then some .dblk
  else if t = ['d', 'b', 'u', 'f'] then some .dbuf
  else if t = ['p', 'e', 'r', 'm'] then some .perm
  else if t = ['s', 'u', 'b', 's', 't'] then some .subst
  else none

/-- A command with one argument, by its mnemonic in small letters: `MIXCOL c`, c in 0..3; `ADDRK r`, r in 0..10. -/
def argCommand (t : List Char) (a : Word) : Option Instr :=
  if t = ['m', 'i', 'x', 'c', 'o', 'l'] then (if a.toNat ≤ 3 then some (.mixcol (a.setWidth 2)) else none)
  else if t = ['a', 'd', 'd', 'r', 'k'] then (if a.toNat ≤ 10 then some (.addrk (a.setWidth 4)) else none)
  else none

/-- The line a list of tokens stands for: the basic forms of R73. Mnemonics are case-insensitive. -/
def assembleTokens (ts : List (List Char)) : Option Line :=
  match ts.map (List.map Char.toLower) with
  | [m] => (plainCommand m).map .cmd
  | [m, a] =>
    match number a with
    | some v => if m = ['r', 'd'] then some (.rd v) else (argCommand m v).map .cmd
    | none => none
  | [m, a, b] =>
    match number a, number b with
    | some o, some v => if m = ['w', 'r'] then some (.wr o v) else none
    | _, _ => none
  | [m, a, arrow, b] =>
    match number a, number b with
    | some o, some v => if m = ['r', 'd'] ∧ arrow = ['=', '>'] then some (.rdIs o v) else none
    | _, _ => none
  | _ => none

/-- Assemble the text of one line (R73). DESIGN CHOICE, safe, log entry 17: R73 does not say whether a blank line, or a line
that holds a comment only (95_test_vectors.md Program 3 begins with one), is a line of a program. The model answers none
for it, the same as for ill-formed text. -/
def assembleLine (text : List Char) : Option Line := assembleTokens (tokens (uncomment text) [])

/-! ## The disassembler (R76) -/

/-- A digit below 16 as a character. -/
def digitChar (d : Nat) : Char := Char.ofNat (if d < 10 then 48 + d else 55 + d)

/-- A number below 100 in decimal. -/
def decimal (n : Nat) : List Char := if n < 10 then [digitChar n] else [digitChar (n / 10), digitChar (n % 10)]

/-- The eight hex digits of a word. -/
def hexDigits (w : Word) : List Char := [7, 6, 5, 4, 3, 2, 1, 0].map fun i => digitChar (w.toNat / 16 ^ i % 16)

/-- The mnemonic of a command and, for MIXCOL and ADDRK, its decimal argument. -/
def commandText : Instr → List Char
  | .init => ['I', 'N', 'I', 'T']
  | .dblk => ['D', 'B', 'L', 'K']
  | .dbuf => ['D', 'B', 'U', 'F']
  | .perm => ['P', 'E', 'R', 'M']
  | .subst => ['S', 'U', 'B', 'S', 'T']
  | .mixcol c => ['M', 'I', 'X', 'C', 'O', 'L', ' '] ++ decimal c.toNat
  | .addrk r => ['A', 'D', 'D', 'R', 'K', ' '] ++ decimal r.toNat

/-- A command word as the disassembler prints it (R76). -/
def disassemble (w : Word) : List Char :=
  match decode w with
  | .ok i => commandText i
  | .error _ =>
    ['.', 'w', 'o', 'r', 'd', ' ', '0', 'x'] ++ hexDigits w ++ [' ', ' ', '#', ' ', 'i', 'l', 'l', 'e', 'g', 'a', 'l']

end Sys2Proof.Machine
end

