-- ==== Sys2Proof/Safety.lean ====
section
/-! DEFINITION. The terms in which claims about the engine are stated: loaded tables, the invariants of a run, sequences of
commands, and which parts of two states agree. -/

namespace Sys2Proof.Machine

/-! ## Loaded stores -/

/-- Every entry of substitution table t has been written since reset (70_reset_and_hazards.md R143). -/
def TableLoaded (m : Memory) (t : Nat) : Prop := ∀ x : Byte, m.written (sboxOff t x) = true

/-- Every byte of SCHED has been written since reset. -/
def SchedLoaded (m : Memory) : Prop := ∀ k, k < schedBytes → m.written (schedOff k) = true

/-- What a decryption may read is loaded (R138, R143): tables 1 to 4 and 7, and the schedule. -/
def DecryptLoaded (m : Memory) : Prop :=
  TableLoaded m 1 ∧ TableLoaded m 2 ∧ TableLoaded m 3 ∧ TableLoaded m 4 ∧ TableLoaded m 7 ∧ SchedLoaded m

/-- The bytes `BUF[a..a+n)` have been written since reset. -/
def BufLoaded (m : Memory) (a n : Nat) : Prop := ∀ i, i < n → m.written (bufOff (a + i)) = true

/-- The block `BUF[a..a+16)`. -/
def bufBlock (m : Memory) (a : Nat) : Block := Vector.ofFn fun i : Fin 16 => m.buf (a + i.val)

/-- What DBLK and DBUF compute for one block from the current tables and schedule (42_engine_commands.md R103). -/
def decryptedBlock (m : Memory) (B : Block) : Block := decryptBlock m.sbox m.sched B

/-- The pad length of DBUF's buffer: the final byte of its last block, decrypted (R110). -/
def padLength (s : State) : Nat := (decryptedBlock s.mem (bufBlock s.mem (s.len.toNat - 16)))[15].toNat

/-! ## What a command reads

The offsets are written out from the map (20_memory.md R44, R46, R47): SCHED[k] is at 0x100 + k, entry e of SBOX[t] at
0x800 + 0x100 * (t - 1) + e, and BUF[a] at 0x1000 + a. -/

/-- The fault of a command that reads the unwritten byte at offset a, by the store in which it lies (10_state.md R40; the
names are the model's, log entry 5). -/
def unwrittenFault (a : Nat) : Fault :=
  if a < 0x800 then .unwrittenSched a else if a < 0x1000 then .unwrittenSbox a else .unwrittenBuf a

/-- Substitute(B, SBOX[7]) reads the entries of table 7 at the 16 bytes of B (41_block_transform.md R90). -/
def SubstituteReads (B : Block) (a : Nat) : Prop := ∃ i : Fin 16, a = 0xE00 + B[i].toNat

/-- MixColumn(B, 4c) reads the entries of each of the tables 1 to 4 at each of the four bytes of column c (R92, R95). -/
def MixColumnReads (c : Fin 4) (B : Block) (a : Nat) : Prop :=
  ∃ i : Fin 16, i.val / 4 = c.val ∧ ∃ t, 1 ≤ t ∧ t ≤ 4 ∧ a = 0x800 + 0x100 * (t - 1) + B[i].toNat

/-- MixAll(B) reads the entries of each of the tables 1 to 4 at each of the 16 bytes of B (R95, R96). -/
def MixAllReads (B : Block) (a : Nat) : Prop := ∃ c, MixColumnReads c B a

/-- AddRoundKey(B, r) reads the 16 bytes of round key r (R97). -/
def RoundKeyReads (r a : Nat) : Prop := ∃ i : Fin 16, a = 0x100 + 16 * r + i.val

/-- What the loop of DecryptBlock reads from round r down to 0 (42_engine_commands.md R103, steps 3). -/
def DecryptRoundsReads (S : Nat → Byte → Byte) (K : Nat → Byte) : Nat → Block → Nat → Prop
  | 0, B, a => SubstituteReads (permute B) a ∨ RoundKeyReads 0 a
  | r + 1, B, a =>
    let C := addRoundKey K (r + 1) (substitute (S 7) (permute B))
    SubstituteReads (permute B) a ∨ RoundKeyReads (r + 1) a ∨ MixAllReads C a ∨ DecryptRoundsReads S K r (mixAll S C) a

/-- What DecryptBlock(B) reads with the current tables and schedule (R103): round key 10, then the loop's reads. If one of
these bytes is unwritten, the reads after it are worked out with 0 in its place; no command gets that far, since it stops at
the first unwritten byte. -/
def DecryptReads (m : Memory) (B : Block) (a : Nat) : Prop :=
  RoundKeyReads 10 a ∨ DecryptRoundsReads m.sbox m.sched 9 (addRoundKey m.sched 10 B) a

/-- What the decryption of the block `BUF[b..b+16)` reads: the block, then what DecryptBlock reads. -/
def BufBlockReads (m : Memory) (b a : Nat) : Prop :=
  (0x1000 + b ≤ a ∧ a < 0x1000 + b + 16) ∨ DecryptReads m (bufBlock m b) a

/-! ## Invariants -/

/-- The offsets at which a byte store of the engine lies: SCHED, SBOX[1..8] or BUF (20_memory.md R44). -/
def inStores (bufBytes a : Nat) : Prop :=
  (offSched ≤ a ∧ a < offSched + schedBytes) ∨ (offSbox ≤ a ∧ a < offBuf) ∨ (offBuf ≤ a ∧ a < offBuf + bufBytes)

/-- BUF_BYTES is admissible (00_scope.md R9). -/
def AdmissibleSize (n : Nat) : Prop := 16 ≤ n ∧ n ≤ 2 ^ 31 ∧ n % 16 = 0

/-- The byte stores are in canonical form, hold bytes at offsets of the stores only, and the size parameter is
admissible. -/
def StoresWf (s : State) : Prop :=
  s.mem.wf = true ∧ (∀ a, s.mem.written a = true → inStores s.bufBytes a) ∧ AdmissibleSize s.bufBytes

/-- SCHED = Expand(KEY, SBOX[8], MIXV) for the current contents, every table-8 entry that this looks up being written
(10_state.md R33). -/
def ScheduleCurrent (s : State) : Prop :=
  (∀ a ∈ initLookups s, s.mem.written a = true) ∧
  ∀ k : Fin 176, s.mem.read (schedOff k.val) = some (initSchedule s)[k]

/-- While READY = 1 the schedule is current (R33). -/
def ReadyMeansCurrent (s : State) : Prop := s.ready = true → ScheduleCurrent s

/-- STATUS.ERR is one of the codes 0 to 4 (60_exceptions.md R116, 93 U3). -/
def ErrDefined (s : State) : Prop := s.err.toNat ≤ 4

/-- The invariant of every run of the engine. -/
def EngineInv (s : State) : Prop := StoresWf s ∧ ReadyMeansCurrent s ∧ ErrDefined s

/-! ## Parts of the state -/

/-- The two states agree on the host's side of the run: accesses to come, words read, free bytes drawn; and on the size
parameter. -/
def SameHostSide (s t : State) : Prop :=
  t.pending = s.pending ∧ t.readLog = s.readLog ∧ t.draws = s.draws ∧ t.bufBytes = s.bufBytes

/-- The two states hold the same configuration: KEY, MIXV and every byte of SBOX[1..8] (10_state.md R36). -/
def SameConfiguration (s t : State) : Prop :=
  t.key = s.key ∧ t.mixv = s.mixv ∧ ∀ a, offSbox ≤ a → a < offBuf → t.mem.read a = s.mem.read a

/-- Every byte of the stores reads the same in both states. -/
def SameStores (s t : State) : Prop := ∀ a, t.mem.read a = s.mem.read a

/-- The two states differ at most in the entries of SBOX[5] and SBOX[6], at 0xC00 to 0xDFF (20_memory.md R46), and in how
the stores list their bytes. -/
def AgreeButTables56 (s t : State) : Prop :=
  (∀ a, ¬ (0xC00 ≤ a ∧ a < 0xE00) → t.mem.read a = s.mem.read a) ∧ t.setMem s.mem = s

/-! ## Sequences of commands -/

/-- Execute commands one after the other; a fault or a refusal stops the sequence. -/
def execAll : List Instr → State → Host.Outcome State Fault Refusal
  | [], s => .next s
  | i :: is, s =>
    match exec i s with
    | .next t => execAll is t
    | .fault f => .fault f
    | .refused r => .refused r

end Sys2Proof.Machine
end

