-- ==== Sys2Proof/Certificates/Slice0/Obligations.lean ====
section
/-! DEFINITION. The statements about the engine that the provers are asked to settle. Each docstring names the rule of spec/
it formalises, or says what it rests on. -/

open Sys2Proof Sys2Proof.Machine

/-! ## Encoding -/

/-- Decoding the word of a well-formed command gives that command back, for every column and every round key
(30_encoding.md R67-R70). -/
def Obligations.DecodeOfEncodeIsIdentity : Prop :=
  ∀ i : Instr, i.wellFormed = true → decode (encode i) = .ok i

/-- A word that decodes is the encoding of the well-formed command it decodes to: no bit is ignored (R70, R71). -/
def Obligations.DecodedWordIsItsEncoding : Prop :=
  ∀ (w : Word) (i : Instr), decode w = .ok i → i.wellFormed = true ∧ encode i = w

/-- The legal commands are exactly the 20 words that 30_encoding.md R72 lists, pairwise different; every other word is
refused (from R69 to R71; R72 is the spec's own inference). -/
def Obligations.LegalCommandsAreTheTwentyWords : Prop :=
  (∀ w : Word, (∃ i, decode w = .ok i) ↔ w ∈ legalWords) ∧ legalWords.Nodup ∧ legalWords.length = 20

/-- A few words of the opcode map, written out from 30_encoding.md R69, and the nearest illegal words of V-EN-1. -/
def Obligations.OpcodeMapWordsDecode : Prop :=
  decode 0x00000001#32 = .ok .init ∧ decode 0x00000002#32 = .ok .dblk ∧ decode 0x00000003#32 = .ok .dbuf ∧
  decode 0x00000010#32 = .ok .perm ∧ decode 0x00000011#32 = .ok .subst ∧ decode 0x00000312#32 = .ok (.mixcol 3#2) ∧
  decode 0x00000A13#32 = .ok (.addrk 10#4) ∧ decode 0x00000412#32 = .error (.illegalArg 0x12#8 4#4) ∧
  decode 0x00000B13#32 = .error (.illegalArg 0x13#8 11#4) ∧ decode 0x80000002#32 = .error (.reservedBits 0x80000#20) ∧
  decode 0x000000FF#32 = .error (.unknownOp 0xFF#8)

/-! ## One step -/

/-- When the host's next access is an aligned 32-bit write to CMD of a word that decodes to `i`, the step is `exec i`
in the state from which that access is taken away (R26, R66, R70). The list of accesses is the model's (log entry 1).
-/
def Obligations.StepRunsDecodedInstruction : Prop :=
  ∀ (s : State) (v : Word) (rest : List HostEvent) (i : Instr),
    s.pending = .write 32 0x000#32 v :: rest → decode v = .ok i → step s = exec i (s.setPending rest)

/-- Issuing the word of a well-formed command makes the very next step execute that command in the state as it was
(R66, R70; `withFetchWord` stands for the host that issues it, log entry 1). -/
def Obligations.IssuedWordRunsItsCommand : Prop :=
  ∀ (s : State) (i : Instr), i.wellFormed = true → step (s.withFetchWord 32 (encode i).toNat) = exec i s

/-- A word written to CMD that is illegal, in each of the ways 30_encoding.md R71 lists (RSV ≠ 0; an OP outside the
seven; a nonzero ARG for INIT, DBLK, DBUF, PERM or SUBST; MIXCOL with ARG[3:2] ≠ 0; ADDRK with ARG 11 to 15), sets ERR
to 4 and changes nothing else (60_exceptions.md R120). -/
def Obligations.IllegalWordOnlySetsErr : Prop :=
  ∀ (s : State) (v : Word),
    (rsvField v ≠ 0#20 ∨
      opField v ∉ [0x01#8, 0x02#8, 0x03#8, 0x10#8, 0x11#8, 0x12#8, 0x13#8] ∨
      (opField v ∈ [0x01#8, 0x02#8, 0x03#8, 0x10#8, 0x11#8] ∧ argField v ≠ 0#4) ∨
      (opField v = 0x12#8 ∧ (argField v).extractLsb' 2 2 ≠ 0#2) ∨
      (opField v = 0x13#8 ∧ 11 ≤ (argField v).toNat)) →
    executeCommand v s = .next { s with err := 4#4 }

/-- A step whose next access is a CMD write of none of the 20 legal words sets ERR to 4 and changes nothing else
(60_exceptions.md R120; the list of accesses is the model's, log entry 1). -/
def Obligations.StepOfIllegalWordOnlySetsErr : Prop :=
  ∀ (s : State) (v : Word) (rest : List HostEvent),
    s.pending = .write 32 0x000#32 v :: rest → v ∉ legalWords → step s = .next { s with pending := rest, err := 4#4 }

/-- With no host access waiting a step changes nothing: the engine never acts on its own (00_scope.md R18). That a
step with nothing to do answers the same state is the model's choice, log entry 2. -/
def Obligations.NoAccessNoChange : Prop := ∀ s : State, s.pending = [] → step s = .next s

/-! ## INIT -/

/-- INIT completes whenever the SBOX[8] entries it looks up are written: SCHED holds Expand(KEY, SBOX[8], MIXV), READY
is 1, ERR is 0, and everything else keeps (40_key_schedule.md R85). The entries of table 8 are the bytes at 0xF00 and
up (20_memory.md R46). -/
def Obligations.InitWritesExpandedSchedule : Prop :=
  ∀ s : State, (∀ a ∈ initLookups s, s.mem.written a = true) →
    ∃ t, exec .init s = .next t ∧
      (∀ k : Fin 176, t.mem.read (0x100 + k.val) = some (expand s.key (fun x => (s.mem.read (0xF00 + x.toNat)).getD 0#8) s.mixv)[k]) ∧
      (∀ a, ¬ (0x100 ≤ a ∧ a < 0x100 + 176) → t.mem.read a = s.mem.read a) ∧
      t = { s with mem := t.mem, ready := true, err := 0#4 }

/-- INIT's first step: SCHED[i] = KEY[i] XOR (39 − i) for i in 0..15, with constants in 24..39, and KEY itself keeps
(40_key_schedule.md R77). -/
def Obligations.InitTransformsKey : Prop :=
  (∀ s : State, (∀ a ∈ initLookups s, s.mem.written a = true) →
    ∃ t, exec .init s = .next t ∧ t.key = s.key ∧
      ∀ i : Fin 16, t.mem.read (0x100 + i.val) = some (s.key[i] ^^^ BitVec.ofNat 8 (39 - i.val))) ∧
  ∀ i : Fin 16, 24 ≤ 39 - i.val ∧ 39 - i.val ≤ 39

/-- The closed form of the expansion, schedule word by schedule word (R78, R79; R80 is the spec's own inference from
them): `W w p` is byte p of schedule word w. The 40 entries of table 8 that INIT looks up are at the bytes of the
schedule words 3, 7, ..., 39, and no other (from R78; R82 is the spec's own inference). -/
def Obligations.ExpandHasClosedForm : Prop :=
  (∀ (key : Block) (S8 : Byte → Byte) (mixv : Vector Byte 10),
    let W : Nat → Nat → Byte := fun w p => (expand key S8 mixv).getD (4 * w + p) 0#8
    (∀ w p, w < 4 → p < 4 → W w p = key.getD (4 * w + p) 0#8 ^^^ BitVec.ofNat 8 (39 - (4 * w + p))) ∧
    ∀ w, 4 ≤ w → w < 44 →
      (w % 4 = 0 →
        W w 0 = W (w - 4) 0 ^^^ (S8 (W (w - 1) 1) ^^^ mixv.getD (w / 4 - 1) 0#8) ∧
        W w 1 = W (w - 4) 1 ^^^ S8 (W (w - 1) 2) ∧
        W w 2 = W (w - 4) 2 ^^^ S8 (W (w - 1) 3) ∧
        W w 3 = W (w - 4) 3 ^^^ S8 (W (w - 1) 0)) ∧
      (w % 4 ≠ 0 → ∀ p, p < 4 → W w p = W (w - 4) p ^^^ W (w - 1) p)) ∧
  ∀ s : State,
    let W : Nat → Nat → Byte := fun w p =>
      (expand s.key (fun x => (s.mem.read (0xF00 + x.toNat)).getD 0#8) s.mixv).getD (4 * w + p) 0#8
    (initLookups s).length = 40 ∧
    ∀ a, a ∈ initLookups s ↔ ∃ r p, r < 10 ∧ p < 4 ∧ a = 0xF00 + (W (4 * r + 3) p).toNat

/-- Two INITs with no access between them leave the same state as one: KEY is not transformed in place (R86, R77). The
premise is the canonical form of the stores, an invariant. -/
def Obligations.SecondInitChangesNothing : Prop :=
  ∀ s t : State, s.mem.wf = true → exec .init s = .next t → exec .init t = .next t

/-- INIT leaves every register but READY and ERR, and every byte outside SCHED, as it was (R85, 10_state.md R42). -/
def Obligations.InitFrame : Prop :=
  ∀ s t : State, exec .init s = .next t →
    t.key = s.key ∧ t.mixv = s.mixv ∧ t.blk = s.blk ∧ t.len = s.len ∧ t.outLen = s.outLen ∧ SameHostSide s t ∧
    ∀ a, ¬ (0x100 ≤ a ∧ a < 0x100 + 176) → t.mem.read a = s.mem.read a

/-! ## The block primitives -/

/-- PERM completes in every state: output byte i is input byte (64 − 3i) mod 16 (41_block_transform.md R88, R99). -/
def Obligations.PermMovesBytes : Prop :=
  ∀ s : State, ∃ t, exec .perm s = .next t ∧
    (∀ i : Fin 16, t.blk[i] = s.blk[(4 * (16 - i.val) + i.val) % 16]) ∧
    (∀ i : Fin 16, (4 * (16 - i.val) + i.val) % 16 = (64 - 3 * i.val) % 16) ∧
    t = { s with blk := t.blk, err := 0#4 }

/-- The source index P is a bijection, keeps the lane, takes byte i from column (i div 4 − i mod 4) mod 4, and four
PERMs in a row restore BLK (R89). -/
def Obligations.FourPermsRestoreBlk : Prop :=
  let P : Fin 16 → Nat := fun i => (64 - 3 * i.val) % 16
  (∀ i j, P i = P j → i = j) ∧ (∀ i, P i < 16 ∧ P i % 4 = i.val % 4) ∧
  (∀ i, P i / 4 = (i.val / 4 + 4 - i.val % 4) % 4) ∧
  ∀ s : State, execAll [.perm, .perm, .perm, .perm] s = .next { s with err := 0#4 }

/-- SUBST completes whenever the 16 entries it indexes are written: every byte is replaced by its SBOX[7] entry, table
7 being at 0xE00 and up (R90, R100; 20_memory.md R46). -/
def Obligations.SubstLooksUpTableSeven : Prop :=
  ∀ s : State, (∀ i : Fin 16, s.mem.written (0xE00 + s.blk[i].toNat) = true) →
    ∃ t, exec .subst s = .next t ∧ (∀ i : Fin 16, s.mem.read (0xE00 + s.blk[i].toNat) = some t.blk[i]) ∧
      t = { s with blk := t.blk, err := 0#4 }

/-- MIXCOL c completes whenever the entries of SBOX[1..4] at the column's four bytes are written, and gives the four
rows of R93 from the latched inputs; the other 12 bytes keep (R92-R94, R101). `S t` reads table t where 20_memory.md
R46 puts it. -/
def Obligations.MixcolGivesTheFourRows : Prop :=
  ∀ (s : State) (c : BitVec 2),
    let x : Nat → Byte := fun j => s.blk.getD (4 * c.toNat + j) 0#8
    let entry : Nat → Byte → Nat := fun t e => 0x800 + 0x100 * (t - 1) + e.toNat
    let S : Nat → Byte → Byte := fun t e => (s.mem.read (entry t e)).getD 0#8
    (∀ j, j < 4 → ∀ t, 1 ≤ t → t ≤ 4 → s.mem.written (entry t (x j)) = true) →
    ∃ t, exec (.mixcol c) s = .next t ∧
      t.blk.getD (4 * c.toNat) 0#8 = S 1 (x 0) ^^^ S 3 (x 1) ^^^ S 2 (x 2) ^^^ S 4 (x 3) ∧
      t.blk.getD (4 * c.toNat + 1) 0#8 = S 4 (x 0) ^^^ S 1 (x 1) ^^^ S 3 (x 2) ^^^ S 2 (x 3) ∧
      t.blk.getD (4 * c.toNat + 2) 0#8 = S 2 (x 0) ^^^ S 4 (x 1) ^^^ S 1 (x 2) ^^^ S 3 (x 3) ∧
      t.blk.getD (4 * c.toNat + 3) 0#8 = S 3 (x 0) ^^^ S 2 (x 1) ^^^ S 4 (x 2) ^^^ S 1 (x 3) ∧
      (∀ i : Fin 16, i.val / 4 ≠ c.toNat → t.blk[i] = s.blk[i]) ∧
      t = { s with blk := t.blk, err := 0#4 }

/-- ADDRK r, r in 0..10, completes while READY = 1 and the round key is written: BLK'[i] = BLK[i] XOR SCHED[16r + i]
(R97, R102), SCHED[k] being at 0x100 + k (20_memory.md R44). -/
def Obligations.AddrkXorsRoundKey : Prop :=
  ∀ (s : State) (r : BitVec 4), r.toNat ≤ 10 → s.ready = true →
    (∀ i : Fin 16, s.mem.written (0x100 + 16 * r.toNat + i.val) = true) →
    ∃ t, exec (.addrk r) s = .next t ∧
      (∀ i : Fin 16, s.mem.read (0x100 + 16 * r.toNat + i.val) = some (s.blk[i] ^^^ t.blk[i])) ∧
      t = { s with blk := t.blk, err := 0#4 }

/-- ADDRK r applied twice restores BLK (R102's corner case). -/
def Obligations.AddrkTwiceRestoresBlk : Prop :=
  ∀ (s t : State) (r : BitVec 4), s.ready = true → r.toNat ≤ 10 → exec (.addrk r) s = .next t →
    exec (.addrk r) t = .next { s with err := 0#4 }

/-- DBLK, PERM, SUBST, MIXCOL and ADDRK leave everything but BLK and ERR as it was, every byte of the stores included
(R99-R102, 42_engine_commands.md R106, 10_state.md R42). -/
def Obligations.BlockCommandsFrame : Prop :=
  ∀ (i : Instr) (s t : State), i ≠ .init → i ≠ .dbuf → exec i s = .next t →
    t = { s with blk := t.blk, err := t.err } ∧ SameStores s t

/-! ## Reads of unwritten bytes -/

/-- INIT, SUBST, MIXCOL and, while READY = 1, DBLK fault on a read of a table entry (DBLK: or of a schedule byte) that
is unwritten since reset, and the fault names such a byte; with every byte that it reads written, DBLK completes
(10_state.md R40, 70_reset_and_hazards.md R143, 93 U2; the faults' names are the model's, log entry 5). What DBLK
reads is `DecryptReads`, written out from R103 with the map's offsets. -/
def Obligations.UnwrittenTableEntryFaults : Prop :=
  (∀ s : State, (∃ a ∈ initLookups s, s.mem.read a = none) →
    ∃ a ∈ initLookups s, s.mem.read a = none ∧ exec .init s = .fault (.unwrittenSbox a)) ∧
  (∀ s : State, (∃ a, SubstituteReads s.blk a ∧ s.mem.read a = none) →
    ∃ a, SubstituteReads s.blk a ∧ s.mem.read a = none ∧ exec .subst s = .fault (.unwrittenSbox a)) ∧
  (∀ (s : State) (c : BitVec 2), (∃ a, MixColumnReads c.toFin s.blk a ∧ s.mem.read a = none) →
    ∃ a, MixColumnReads c.toFin s.blk a ∧ s.mem.read a = none ∧ exec (.mixcol c) s = .fault (.unwrittenSbox a)) ∧
  ∀ s : State, s.ready = true →
    ((∃ a, DecryptReads s.mem s.blk a ∧ s.mem.read a = none) →
      ∃ a, DecryptReads s.mem s.blk a ∧ s.mem.read a = none ∧ exec .dblk s = .fault (unwrittenFault a)) ∧
    ((∀ a, DecryptReads s.mem s.blk a → s.mem.written a = true) →
      exec .dblk s = .next { s with blk := decryptBlock s.mem.sbox s.mem.sched s.blk, err := 0#4 })

/-- In a state whose READY flag means what it says, no command faults on SCHED (93 U2, R33). -/
def Obligations.ReadyStatesNeverFaultOnSched : Prop :=
  ∀ (i : Instr) (s : State) (a : Nat), i.wellFormed = true → ReadyMeansCurrent s → exec i s ≠ .fault (.unwrittenSched a)

/-! ## DBLK -/

/-- DBLK completes while READY = 1 and the tables and the schedule are loaded: BLK is decrypted in place
(42_engine_commands.md R103, R106). -/
def Obligations.DblkDecryptsBlk : Prop :=
  ∀ s : State, s.ready = true → DecryptLoaded s.mem →
    exec .dblk s = .next { s with blk := decryptBlock s.mem.sbox s.mem.sched s.blk, err := 0#4 }

/-- While READY = 1, the 67 commands ADDRK 10; ROUND 9; ...; ROUND 1; LAST do what one DBLK does, faults included;
with loaded stores they leave DecryptBlock(BLK) in BLK and ERR = 0 (from R99 to R103 and R75; R105 is the spec's own
inference). -/
def Obligations.PrimitiveSequenceEqualsDblk : Prop :=
  decryptCommands.length = 67 ∧
  (∀ s : State, s.ready = true → execAll decryptCommands s = exec .dblk s) ∧
  ∀ s : State, s.ready = true → DecryptLoaded s.mem →
    execAll decryptCommands s = .next { s with blk := decryptBlock s.mem.sbox s.mem.sched s.blk, err := 0#4 }

/-! ## DBUF -/

/-- DBUF with LEN = 0, LEN mod 16 ≠ 0 or LEN > BUF_BYTES: ERR = 2, OUT_LEN = 0, nothing else changes, whatever READY
is (R108). -/
def Obligations.DbufRejectsBadLength : Prop :=
  ∀ s : State, (s.len.toNat = 0 ∨ s.len.toNat % 16 ≠ 0 ∨ s.len.toNat > s.bufBytes) →
    exec .dbuf s = .next { s with outLen := 0#32, err := 2#4 }

/-- With a good length and READY = 0, DBUF: ERR = 1, OUT_LEN = 0, nothing else changes (R109). -/
def Obligations.DbufRejectsNotReady : Prop :=
  ∀ s : State, 0 < s.len.toNat → s.len.toNat % 16 = 0 → s.len.toNat ≤ s.bufBytes → s.ready = false →
    exec .dbuf s = .next { s with outLen := 0#32, err := 1#4 }

/-- With a good length, READY = 1 and loaded stores, a final decrypted byte outside 1..16: ERR = 3, OUT_LEN = 0,
nothing else changes, BUF included (R110, R111). -/
def Obligations.DbufRejectsBadPadding : Prop :=
  ∀ s : State, 0 < s.len.toNat → s.len.toNat % 16 = 0 → s.len.toNat ≤ s.bufBytes → s.ready = true →
    DecryptLoaded s.mem → BufLoaded s.mem (s.len.toNat - 16) 16 → (padLength s < 1 ∨ 16 < padLength s) →
    exec .dbuf s = .next { s with outLen := 0#32, err := 3#4 }

/-- DBUF completes with a good length, READY = 1, loaded stores and a pad byte in 1..16: every block of BUF[0..LEN) is
replaced by the decryption of what it held before, each on its own, every other byte keeps, OUT_LEN = LEN − n and ERR
= 0 (R112-R114). -/
def Obligations.DbufDecryptsEveryBlock : Prop :=
  ∀ s : State, 0 < s.len.toNat → s.len.toNat % 16 = 0 → s.len.toNat ≤ s.bufBytes → s.ready = true →
    DecryptLoaded s.mem → BufLoaded s.mem 0 s.len.toNat → 1 ≤ padLength s → padLength s ≤ 16 →
    ∃ t, exec .dbuf s = .next t ∧
      (∀ (k : Nat) (i : Fin 16), k < s.len.toNat / 16 →
        t.mem.read (bufOff (16 * k + i.val)) = some (decryptedBlock s.mem (bufBlock s.mem (16 * k)))[i]) ∧
      (∀ a, ¬ (bufOff 0 ≤ a ∧ a < bufOff s.len.toNat) → t.mem.read a = s.mem.read a) ∧
      t = { s with mem := t.mem, outLen := BitVec.ofNat 32 (s.len.toNat - padLength s), err := 0#4 }

/-- After a successful DBUF, each block of the result is what DBLK gives for that block loaded into BLK (from R106 and
R112; R113 is the spec's own inference). -/
def Obligations.DbufBlockEqualsDblk : Prop :=
  ∀ (s t : State) (k : Nat), exec .dbuf s = .next t → t.err = 0#4 → k < s.len.toNat / 16 →
    ∃ u, exec .dblk (s.setBlk (bufBlock s.mem (16 * k))) = .next u ∧
      ∀ i : Fin 16, t.mem.read (bufOff (16 * k + i.val)) = some u.blk[i]

/-- OUT_LEN never exceeds LEN; after a success it is less than LEN by 1 to 16, after a failure it is 0 (R115,
10_state.md R28). -/
def Obligations.DbufOutLenInBounds : Prop :=
  ∀ s t : State, exec .dbuf s = .next t →
    (t.err = 0#4 → t.outLen.toNat < s.len.toNat ∧ s.len.toNat ≤ t.outLen.toNat + 16) ∧ (t.err ≠ 0#4 → t.outLen = 0#32)

/-- DBUF leaves every register but OUT_LEN and ERR, and every byte outside BUF[0..LEN), as it was; on a failure every
byte (R112, R114, 10_state.md R42). -/
def Obligations.DbufFrame : Prop :=
  ∀ s t : State, exec .dbuf s = .next t →
    t = { s with mem := t.mem, outLen := t.outLen, err := t.err } ∧
    (∀ a, ¬ (bufOff 0 ≤ a ∧ a < bufOff s.len.toNat) → t.mem.read a = s.mem.read a) ∧
    (t.err ≠ 0#4 → SameStores s t)

/-! ## Errors -/

/-- Whatever word is written to CMD: if an error is reported, then ERR holds the error's code, OUT_LEN is 0 if the
command is DBUF (word 3), and nothing else has changed (60_exceptions.md R122). -/
def Obligations.FailureIsPrecise : Prop :=
  ∀ (v : Word) (s t : State), executeCommand v s = .next t → t.err ≠ 0#4 →
    ∃ e : ErrCode, e ≠ .ok ∧ t = { s with err := e.code, outLen := if v = 0x00000003#32 then 0#32 else s.outLen }

/-- Every command that answers sets ERR to 0 or to a code of its row in R116, for the cause R116 gives; 5 to 15 never.
-/
def Obligations.ErrCodesHaveTheirCauses : Prop :=
  ∀ (i : Instr) (s t : State), i.wellFormed = true → exec i s = .next t →
    t.err = 0#4 ∨
    (t.err = 1#4 ∧ s.ready = false ∧ (i = .dblk ∨ i = .dbuf ∨ ∃ r, i = .addrk r)) ∨
    (t.err = 2#4 ∧ i = .dbuf ∧ (s.len.toNat = 0 ∨ s.len.toNat % 16 ≠ 0 ∨ s.len.toNat > s.bufBytes)) ∨
    (t.err = 3#4 ∧ i = .dbuf ∧ s.ready = true ∧ (padLength s < 1 ∨ 16 < padLength s))

/-- DBLK and ADDRK while READY = 0 report NotInitialized and change nothing else (R117, R122). -/
def Obligations.NotReadyFailsDblkAndAddrk : Prop :=
  ∀ s : State, s.ready = false →
    exec .dblk s = .next { s with err := 1#4 } ∧
    ∀ r : BitVec 4, r.toNat ≤ 10 → exec (.addrk r) s = .next { s with err := 1#4 }

/-- No command writes KEY, MIXV or any SBOX table (10_state.md R36). -/
def Obligations.NoCommandWritesConfiguration : Prop :=
  ∀ (i : Instr) (s t : State), exec i s = .next t → SameConfiguration s t

/-- No command writes LEN (10_state.md R42), and none touches the model's own fields (log entries 1, 3 and 4) or the
size parameter. -/
def Obligations.CommandsKeepLenAndHostSide : Prop :=
  ∀ (i : Instr) (s t : State), exec i s = .next t → t.len = s.len ∧ SameHostSide s t

/-! ## Noninterference -/

/-- No command reads SBOX[5] or SBOX[6]: two states that differ only there run every command alike, and again differ
only there (from 41_block_transform.md R91, R92; 10_state.md R35 and R95 are the spec's own inferences). -/
def Obligations.TablesFiveAndSixNeverMatter : Prop :=
  ∀ (i : Instr) (s t : State), AgreeButTables56 s t →
    match exec i s, exec i t with
    | .next u, .next v => AgreeButTables56 u v
    | .fault f, .fault g => f = g
    | _, _ => False

/-- A command's result does not depend on what the host will do, has read, or how many free bytes were drawn: it is a
function of the engine's state (00_scope.md R19). -/
def Obligations.CommandsIgnoreHostSide : Prop :=
  ∀ (i : Instr) (s : State) (p : List HostEvent) (l : List Word) (d : Nat),
    exec i { s with pending := p, readLog := l, draws := d } =
      match exec i s with
      | .next t => .next { t with pending := p, readLog := l, draws := d }
      | .fault f => .fault f
      | .refused r => .refused r

/-! ## The host window -/

/-- A host access that is not 32 bits wide faults, and so does a misaligned one (20_memory.md R49, R50,
60_exceptions.md R121; the faults' names and their order are the model's, log entries 1 and 7). -/
def Obligations.BadAccessFaults : Prop :=
  ∀ (s : State) (rest : List HostEvent) (bits : Nat) (off v : Word),
    (s.pending = .read bits off :: rest ∨ s.pending = .write bits off v :: rest) →
    (bits ≠ 32 → step s = .fault (.busWidth bits)) ∧
    (bits = 32 → off.toNat % 4 ≠ 0 → step s = .fault (.busMisaligned off))

/-- An aligned 32-bit host read completes, changes no engine state and returns one word (R51, R53), here with the
words of the registers: CMD and reserved offsets read 0, STATUS shows ERR in bits 7:4 and READY in bit 0, LEN and
OUT_LEN read as stored, and KEY, MIXV and BLK read byte 4k + j in bits 8j+7 : 8j, lanes past MIXV[9] as 0 (R23, R45,
R48). That the word goes to `readLog` is the model's (log entries 1, 3 and 4). -/
def Obligations.HostReadsOfRegisters : Prop :=
  ∀ (s : State) (rest : List HostEvent) (off : Word),
    s.pending = .read 32 off :: rest → off.toNat % 4 = 0 →
    ∃ v : Word, step s = .next { s with pending := rest, readLog := s.readLog ++ [v], draws := s.draws + 4 } ∧
      (off.toNat = 0x000 → v = 0#32) ∧
      (off.toNat = 0x004 → v.toNat = 16 * s.err.toNat + s.ready.toNat) ∧
      (off.toNat = 0x008 → v = s.len) ∧
      (off.toNat = 0x00C → v = s.outLen) ∧
      (0x010 ≤ off.toNat → off.toNat < 0x020 → ∀ j, j < 4 → byteOf v j = s.key.getD (off.toNat - 0x010 + j) 0#8) ∧
      (0x020 ≤ off.toNat → off.toNat < 0x02C → ∀ j, j < 4 →
        byteOf v j = if off.toNat - 0x020 + j < 10 then s.mixv.getD (off.toNat - 0x020 + j) 0#8 else 0#8) ∧
      (0x030 ≤ off.toNat → off.toNat < 0x040 → ∀ j, j < 4 → byteOf v j = s.blk.getD (off.toNat - 0x030 + j) 0#8) ∧
      ((off.toNat = 0x02C ∨ (0x040 ≤ off.toNat ∧ off.toNat < 0x100) ∨ (0x1B0 ≤ off.toNat ∧ off.toNat < 0x800) ∨
        0x1000 + s.bufBytes ≤ off.toNat) → v = 0#32)

/-- A host read in SCHED, SBOX or BUF returns the four bytes stored at its offsets, lowest lane first; a byte
unwritten since reset reads as a free byte of its own draw number, about which nothing is known (R45, R51, 10_state.md
R40, 93 U1). The accesses, the log and the draw numbers are the model's (log entries 1, 3 and 4). -/
def Obligations.HostReadsOfStores : Prop :=
  ∀ (s : State) (rest : List HostEvent) (off : Word),
    s.pending = .read 32 off :: rest → off.toNat % 4 = 0 →
    ((0x100 ≤ off.toNat ∧ off.toNat < 0x1B0) ∨ (0x800 ≤ off.toNat ∧ off.toNat < 0x1000 + s.bufBytes)) →
    ∃ v : Word, step s = .next { s with pending := rest, readLog := s.readLog ++ [v], draws := s.draws + 4 } ∧
      ∀ j, j < 4 →
        (∀ b, s.mem.read (off.toNat + j) = some b → byteOf v j = b) ∧
        (s.mem.read (off.toNat + j) = none → byteOf v j = Config.freeByte (s.draws + j))

/-- Aligned 32-bit host writes to LEN, KEY, MIXV and BLK: the word or its bytes are stored, lanes past MIXV[9] are
ignored, KEY and MIXV writes clear READY, and nothing else changes (R52; log entry 1). -/
def Obligations.HostWritesToRegisters : Prop :=
  ∀ (s : State) (rest : List HostEvent) (off v : Word),
    s.pending = .write 32 off v :: rest → off.toNat % 4 = 0 →
    (off.toNat = 0x008 → step s = .next { s with pending := rest, len := v }) ∧
    (0x010 ≤ off.toNat → off.toNat < 0x020 → ∃ t, step s = .next t ∧
      (∀ i : Fin 16, t.key[i] = if off.toNat - 0x010 ≤ i.val ∧ i.val < off.toNat - 0x010 + 4
        then byteOf v (i.val - (off.toNat - 0x010)) else s.key[i]) ∧
      t = { s with pending := rest, key := t.key, ready := false }) ∧
    (0x020 ≤ off.toNat → off.toNat < 0x02C → ∃ t, step s = .next t ∧
      (∀ i : Fin 10, t.mixv[i] = if off.toNat - 0x020 ≤ i.val ∧ i.val < off.toNat - 0x020 + 4
        then byteOf v (i.val - (off.toNat - 0x020)) else s.mixv[i]) ∧
      t = { s with pending := rest, mixv := t.mixv, ready := false }) ∧
    (0x030 ≤ off.toNat → off.toNat < 0x040 → ∃ t, step s = .next t ∧
      (∀ i : Fin 16, t.blk[i] = if off.toNat - 0x030 ≤ i.val ∧ i.val < off.toNat - 0x030 + 4
        then byteOf v (i.val - (off.toNat - 0x030)) else s.blk[i]) ∧
      t = { s with pending := rest, blk := t.blk })

/-- Aligned 32-bit host writes to SBOX and BUF store the word's four bytes at the offset, lowest lane first, and leave
every other byte; an SBOX write clears READY, a BUF write does not (R45, R52, 10_state.md R34, R37; log entry 1). -/
def Obligations.HostWritesToStores : Prop :=
  ∀ (s : State) (rest : List HostEvent) (off v : Word),
    s.pending = .write 32 off v :: rest → off.toNat % 4 = 0 → 0x800 ≤ off.toNat → off.toNat < 0x1000 + s.bufBytes →
    ∃ t, step s = .next t ∧
      (∀ j, j < 4 → t.mem.read (off.toNat + j) = some (byteOf v j)) ∧
      (∀ a, ¬ (off.toNat ≤ a ∧ a < off.toNat + 4) → t.mem.read a = s.mem.read a) ∧
      t = { s with pending := rest, mem := t.mem, ready := if off.toNat < 0x1000 then false else s.ready }

/-- Host writes to STATUS, OUT_LEN, SCHED and every reserved offset are ignored (R48, R52, 10_state.md R23, R28, R32;
log entry 1). -/
def Obligations.HostWritesIgnored : Prop :=
  ∀ (s : State) (rest : List HostEvent) (off v : Word),
    s.pending = .write 32 off v :: rest → off.toNat % 4 = 0 →
    (off.toNat = 0x004 ∨ off.toNat = 0x00C ∨ off.toNat = 0x02C ∨ (0x040 ≤ off.toNat ∧ off.toNat < 0x800) ∨
      0x1000 + s.bufBytes ≤ off.toNat) →
    step s = .next { s with pending := rest }

/-- A word written to KEY, MIXV0, MIXV1, BLK, LEN, SBOX or BUF is what the next read of the same offset returns; of a
word written to MIXV2 only the low half is (R27, R29-R31, R34, R37, R48; log entries 1 and 3). -/
def Obligations.WrittenWordReadsBack : Prop :=
  ∀ (s : State) (rest : List HostEvent) (off v : Word),
    s.pending = .write 32 off v :: .read 32 off :: rest → off.toNat % 4 = 0 →
    ((off.toNat = 0x008 ∨ (0x010 ≤ off.toNat ∧ off.toNat < 0x028) ∨ (0x030 ≤ off.toNat ∧ off.toNat < 0x040) ∨
        (0x800 ≤ off.toNat ∧ off.toNat < 0x1000 + s.bufBytes)) →
      ∃ t u, step s = .next t ∧ step t = .next u ∧ u.readLog = s.readLog ++ [v]) ∧
    (off.toNat = 0x028 → ∃ t u, step s = .next t ∧ step t = .next u ∧ u.readLog = s.readLog ++ [v &&& 0x0000FFFF#32])

/-- The readiness state machine, for every step that answers: reset and configuration writes lead to READY = 0, INIT
to READY = 1, and every other access leaves READY as it was (10_state.md R24, 70_reset_and_hazards.md R139; log entry
1). -/
def Obligations.ReadinessStateMachine : Prop :=
  ∀ (s t : State) (e : HostEvent) (rest : List HostEvent), s.pending = e :: rest → step s = .next t →
    t.ready =
      match e with
      | .reset => false
      | .read _ _ => s.ready
      | .write _ off v =>
        if off.toNat = 0x000 then (if v = 0x00000001#32 then true else s.ready)
        else if (0x010 ≤ off.toNat ∧ off.toNat < 0x02C) ∨ (0x800 ≤ off.toNat ∧ off.toNat < 0x1000) then false
        else s.ready

/-- Only a CMD write or reset changes ERR (R25, R52; log entry 1). -/
def Obligations.OnlyCommandsAndResetWriteErr : Prop :=
  ∀ (s t : State) (e : HostEvent) (rest : List HostEvent), s.pending = e :: rest → step s = .next t →
    e ≠ .reset → (∀ v, e ≠ .write 32 0x000#32 v) → t.err = s.err

/-- The 64 word writes of `ldsbox t, f` load the whole table, entry e of it at 0x800 + 0x100 * (t - 1) + e, and leave
READY = 0 (30_encoding.md R75, 20_memory.md R46; log entry 1). -/
def Obligations.LdsboxLoadsTheTable : Prop :=
  ∀ (s : State) (t : Nat) (f : Byte → Byte) (rest : List HostEvent), 1 ≤ t → t ≤ 8 →
    s.pending = accesses (ldsbox t f) ++ rest →
    (accesses (ldsbox t f)).length = 64 ∧
    ∃ u : State, Sys2Proof.core.run 64 s = .next u ∧ (∀ x : Byte, u.mem.read (0x800 + 0x100 * (t - 1) + x.toNat) = some (f x)) ∧
      (∀ a, ¬ (0x800 + 0x100 * (t - 1) ≤ a ∧ a < 0x800 + 0x100 * t) → u.mem.read a = s.mem.read a) ∧
      u = { s with pending := rest, mem := u.mem, ready := false }

/-- The text of a command assembles to it, and its word disassembles to that text (R73, R76). -/
def Obligations.CommandTextRoundTrip : Prop :=
  ∀ i : Instr, i.wellFormed = true →
    assembleLine (commandText i) = some (.cmd i) ∧ disassemble (encode i) = commandText i

/-! ## Invariants and reset -/

/-- Every step keeps the stores canonical, mapped and of admissible size, from every state in which they are (R9,
R44). -/
def Obligations.StepKeepsStoresWf : Prop := ∀ s t : State, StoresWf s → step s = .next t → StoresWf t

/-- While READY = 1, SCHED = Expand(KEY, SBOX[8], MIXV) for the current contents: every step keeps this, from every
state in which it holds (from 10_state.md R24 and 40_key_schedule.md R85; R33 is the spec's own inference). -/
def Obligations.StepKeepsScheduleCurrent : Prop :=
  ∀ s t : State, ReadyMeansCurrent s → step s = .next t → ReadyMeansCurrent t

/-- Every step keeps ERR at a defined code (60_exceptions.md R116, 93 U3). -/
def Obligations.StepKeepsErrDefined : Prop := ∀ s t : State, ErrDefined s → step s = .next t → ErrDefined t

/-- The invariants hold right after reset, whatever admissible size the buffer RAM has (R9, R41; log entry 6). -/
def Obligations.InvariantsHoldAtReset : Prop :=
  StoresWf State.reset ∧ ReadyMeansCurrent State.reset ∧ ErrDefined State.reset

/-- The reset values of 10_state.md R41: READY, ERR, the rest of STATUS, LEN and OUT_LEN are 0, KEY, MIXV and BLK are
all zero, and every byte of SCHED, SBOX and BUF is unwritten. -/
def Obligations.ResetValuesAreTabled : Prop :=
  State.reset.ready = false ∧ State.reset.err = 0#4 ∧ statusWord State.reset = 0#32 ∧ State.reset.len = 0#32 ∧
  State.reset.outLen = 0#32 ∧
  (∀ i : Fin 16, State.reset.key[i] = 0#8) ∧ (∀ i : Fin 10, State.reset.mixv[i] = 0#8) ∧
  (∀ i : Fin 16, State.reset.blk[i] = 0#8) ∧ ∀ a, State.reset.mem.read a = none

/-- The reset input puts every piece of the engine's state to its reset value, from any state (70_reset_and_hazards.md
R135); the size parameter and the host's side of the run keep (log entries 1 and 10). -/
def Obligations.ResetInputRestoresResetValues : Prop :=
  ∀ (s : State) (rest : List HostEvent), s.pending = .reset :: rest →
    ∃ t, step s = .next t ∧ t.ready = false ∧ t.err = 0#4 ∧ t.len = 0#32 ∧ t.outLen = 0#32 ∧
      t.key = State.reset.key ∧ t.mixv = State.reset.mixv ∧ t.blk = State.reset.blk ∧ (∀ a, t.mem.read a = none) ∧
      t.bufBytes = s.bufBytes ∧ t.pending = rest ∧ t.readLog = s.readLog ∧ t.draws = s.draws

/-- No step changes the size of the buffer RAM, the reset input included. That the size is a field of State that
nothing writes is the model's choice, log entry 6 (00_scope.md R9 calls it a parameter of a part), and that the reset
input keeps it is log entry 10. -/
def Obligations.StepKeepsBufBytes : Prop := ∀ s t : State, step s = .next t → t.bufBytes = s.bufBytes

/-! ## Reads of unwritten bytes by ADDRK and DBUF -/

/-- While READY = 1, ADDRK faults on an unwritten byte of its round key; and DBUF with a good length faults on an
unwritten byte of BUF, of a table or of SCHED that it reads: first for the last block, which the padding pre-check
decrypts, and then, if the pad byte is in 1..16, for any block. Each fault names such a byte. With every byte that it
reads written DBUF answers, and where the pad byte is bad, the other blocks need not be written (10_state.md R40, 93
U2, 42_engine_commands.md R110-R112; the faults' names are the model's, log entry 5). -/
def Obligations.AddrkAndDbufFaultOnUnwrittenByte : Prop :=
  (∀ (s : State) (r : BitVec 4), r.toNat ≤ 10 → s.ready = true →
    (∃ a, RoundKeyReads r.toNat a ∧ s.mem.read a = none) →
    ∃ a, RoundKeyReads r.toNat a ∧ s.mem.read a = none ∧ exec (.addrk r) s = .fault (.unwrittenSched a)) ∧
  ∀ s : State, 0 < s.len.toNat → s.len.toNat % 16 = 0 → s.len.toNat ≤ s.bufBytes → s.ready = true →
    ((∃ a, BufBlockReads s.mem (s.len.toNat - 16) a ∧ s.mem.read a = none) →
      ∃ a, BufBlockReads s.mem (s.len.toNat - 16) a ∧ s.mem.read a = none ∧ exec .dbuf s = .fault (unwrittenFault a)) ∧
    ((∀ a, BufBlockReads s.mem (s.len.toNat - 16) a → s.mem.written a = true) →
      ((padLength s < 1 ∨ 16 < padLength s) → exec .dbuf s = .next { s with outLen := 0#32, err := 3#4 }) ∧
      (1 ≤ padLength s → padLength s ≤ 16 →
        ((∃ k a, k < s.len.toNat / 16 ∧ BufBlockReads s.mem (16 * k) a ∧ s.mem.read a = none) →
          ∃ k a, k < s.len.toNat / 16 ∧ BufBlockReads s.mem (16 * k) a ∧ s.mem.read a = none ∧
            exec .dbuf s = .fault (unwrittenFault a)) ∧
        ((∀ k a, k < s.len.toNat / 16 → BufBlockReads s.mem (16 * k) a → s.mem.written a = true) →
          ∃ t, exec .dbuf s = .next t ∧ t.err = 0#4)))
end

