-- ==== Sys2Proof/Laws/Lanes.lean ====
section
/-! SUPPORT. Little-endian words: the lanes of a composed word, and a store after a word is written into it. -/

namespace Sys2Proof.Machine

/-- Lane j of LE32 is byte j (00_scope.md R13). -/
theorem byteOf_le32 (b0 b1 b2 b3 : Byte) :
    byteOf (le32 b0 b1 b2 b3) 0 = b0 ∧ byteOf (le32 b0 b1 b2 b3) 1 = b1 ∧
    byteOf (le32 b0 b1 b2 b3) 2 = b2 ∧ byteOf (le32 b0 b1 b2 b3) 3 = b3 := by
  unfold byteOf le32
  refine ⟨?_, ?_, ?_, ?_⟩ <;>
  · apply BitVec.eq_of_getLsbD_eq
    intro i hi
    simp only [BitVec.getLsbD_extractLsb', BitVec.getLsbD_or, BitVec.getLsbD_shiftLeft, BitVec.getLsbD_setWidth]
    have h : i = 0 ∨ i = 1 ∨ i = 2 ∨ i = 3 ∨ i = 4 ∨ i = 5 ∨ i = 6 ∨ i = 7 := by omega
    rcases h with rfl | rfl | rfl | rfl | rfl | rfl | rfl | rfl <;> simp

/-- LE32 of a word's four bytes is the word. -/
theorem le32_byteOf (v : Word) : le32 (byteOf v 0) (byteOf v 1) (byteOf v 2) (byteOf v 3) = v := by
  unfold byteOf le32
  apply BitVec.eq_of_getLsbD_eq
  intro i hi
  simp only [BitVec.getLsbD_extractLsb', BitVec.getLsbD_or, BitVec.getLsbD_shiftLeft, BitVec.getLsbD_setWidth]
  interval_cases i <;> simp

/-- Words whose four bytes agree are equal. -/
theorem word_ext {v w : Word} (h : ∀ j, j < 4 → byteOf v j = byteOf w j) : v = w := by
  rw [← le32_byteOf v, ← le32_byteOf w, h 0 (by decide), h 1 (by decide), h 2 (by decide), h 3 (by decide)]

/-- Rotating a schedule word right by 8 moves each byte down one place and the lowest to the top
(40_key_schedule.md R78). -/
theorem bytesOf_ror32_le32 (b0 b1 b2 b3 : Byte) : bytesOf (ror32 (le32 b0 b1 b2 b3) 8) = #v[b1, b2, b3, b0] := by
  have e : ror32 (le32 b0 b1 b2 b3) 8 = le32 b1 b2 b3 b0 := by
    unfold ror32 le32
    apply BitVec.eq_of_getLsbD_eq
    intro i hi
    simp only [BitVec.getLsbD_or, BitVec.getLsbD_shiftLeft, BitVec.getLsbD_setWidth, BitVec.getLsbD_ushiftRight]
    interval_cases i <;> simp
  rw [e]
  obtain ⟨h0, h1, h2, h3⟩ := byteOf_le32 b1 b2 b3 b0
  simp only [bytesOf, h0, h1, h2, h3]

/-- Reading a byte store with a default: the byte inside it. -/
theorem getD_inside {n : Nat} (x : Vector Byte n) (i : Nat) (d : Byte) (h : i < n) : x.getD i d = x[i] := by
  simp [Vector.getD, Array.getD, h]

/-- Reading a byte store with a default: the default past its end. -/
theorem getD_outside {n : Nat} (x : Vector Byte n) (i : Nat) (d : Byte) (h : n ≤ i) : x.getD i d = d := by
  simp [Vector.getD, Array.getD, Nat.not_lt.2 h]

/-- Lane j of a store's word is the byte at that place, or 0 past the store's end (20_memory.md R45). -/
theorem byteOf_storeWord {n : Nat} (x : Vector Byte n) (a j : Nat) (h : j < 4) :
    byteOf (storeWord x a) j = x.getD (a + j) 0#8 := by
  obtain ⟨h0, h1, h2, h3⟩ := byteOf_le32 (x.getD a 0#8) (x.getD (a + 1) 0#8) (x.getD (a + 2) 0#8) (x.getD (a + 3) 0#8)
  unfold storeWord
  obtain rfl | rfl | rfl | rfl : j = 0 ∨ j = 1 ∨ j = 2 ∨ j = 3 := by omega
  · exact h0
  · exact h1
  · exact h2
  · exact h3

/-- A store after a word is written at byte a: the word's lanes there, the old bytes elsewhere (R45). -/
theorem setStoreWord_get {n : Nat} (x : Vector Byte n) (a : Nat) (v : Word) (i : Nat) (h : i < n) :
    (setStoreWord x a v)[i] = if a ≤ i ∧ i < a + 4 then byteOf v (i - a) else x[i] := by
  unfold setStoreWord
  simp only [Vector.getElem_setIfInBounds]
  by_cases h3 : a + 3 = i
  · subst h3; simp
  · by_cases h2 : a + 2 = i
    · subst h2; simp
    · by_cases h1 : a + 1 = i
      · subst h1; simp
      · by_cases h0 : a = i
        · subst h0; simp
        · simp only [h0, h1, h2, h3, if_false]
          rw [if_neg (by omega)]

/-- A word written inside a byte store reads back (R45). -/
theorem storeWord_setStoreWord {n : Nat} (x : Vector Byte n) (a : Nat) (v : Word) (h : a + 4 ≤ n) :
    storeWord (setStoreWord x a v) a = v := by
  apply word_ext
  intro j hj
  rw [byteOf_storeWord _ _ _ hj, getD_inside _ _ _ (by omega), setStoreWord_get _ _ _ _ (by omega), if_pos (by omega)]
  congr 1
  omega

end Sys2Proof.Machine
end

