-- ==== Sys2Proof/Laws/Cipher.lean ====
section
/-! SUPPORT. The bytes of each of the cipher's pure functions. -/

namespace Sys2Proof.Machine

@[simp] theorem transformKey_get (key : Block) (i : Nat) (h : i < 16) : (transformKey key)[i] = key[i] ^^^ whiten i := by
  simp [transformKey]

@[simp] theorem wordOf_get (k : Block) (q p : Nat) (h : p < 4) : (wordOf k q)[p] = k[(4 * q + p) % 16] := by
  simp [wordOf]

@[simp] theorem xorWord_get (x y : Vector Byte 4) (p : Nat) (h : p < 4) : (xorWord x y)[p] = x[p] ^^^ y[p] := by
  simp [xorWord]

/-- The rotated scratch word (40_key_schedule.md R78). -/
theorem rotated_eq (x : Vector Byte 4) : rotated x = #v[x[1], x[2], x[3], x[0]] := bytesOf_ror32_le32 _ _ _ _

/-- Byte i + 4 of the next round key chains from its byte i. -/
theorem nextRoundKey_chain (S8 : Byte → Byte) (mv : Byte) (k : Block) (i : Nat) (h : i + 4 < 16) :
    (nextRoundKey S8 mv k)[i + 4] = (nextRoundKey S8 mv k)[i] ^^^ k[i + 4] := by
  have e1 : (i + 4) / 4 = i / 4 + 1 := by omega
  have e2 : (i + 4) % 4 = i % 4 := by omega
  have e3 : (4 * (i / 4 + 1) + i % 4) % 16 = i + 4 := by omega
  simp [nextRoundKey, e1, e2, chainedWord, e3]

/-- The first word of the next round key. -/
theorem nextRoundKey_first (S8 : Byte → Byte) (mv : Byte) (k : Block) :
    (nextRoundKey S8 mv k)[0] = S8 k[13] ^^^ mv ^^^ k[0] ∧ (nextRoundKey S8 mv k)[1] = S8 k[14] ^^^ k[1] ∧
    (nextRoundKey S8 mv k)[2] = S8 k[15] ^^^ k[2] ∧ (nextRoundKey S8 mv k)[3] = S8 k[12] ^^^ k[3] := by
  simp [nextRoundKey, chainedWord, scratchWord, rotated_eq]

/-- Schedule byte k is byte k mod 16 of round key k div 16. -/
theorem expand_get (key : Block) (S8 : Byte → Byte) (mixv : Vector Byte 10) (k : Nat) (h : k < 176) :
    (expand key S8 mixv)[k] = (roundKey key S8 mixv (k / 16))[k % 16] := by
  simp [expand]

/-- The expansion depends on table 8 at the bytes it looks up only: those of the last word of each round key but the last
(40_key_schedule.md R82). -/
theorem mem_expandLookups (key : Block) (S8 : Byte → Byte) (mixv : Vector Byte 10) (x : Byte) :
    x ∈ expandLookups key S8 mixv ↔ ∃ r p, ∃ _ : p < 4, r < 10 ∧ x = (roundKey key S8 mixv r)[12 + p] := by
  simp only [expandLookups, mixvUsed, rotated_eq, List.mem_flatMap, List.mem_range]
  constructor
  · rintro ⟨r, hr, hx⟩
    simp at hx
    rcases hx with rfl | rfl | rfl | rfl
    · exact ⟨r, 1, by decide, hr, rfl⟩
    · exact ⟨r, 2, by decide, hr, rfl⟩
    · exact ⟨r, 3, by decide, hr, rfl⟩
    · exact ⟨r, 0, by decide, hr, rfl⟩
  · rintro ⟨r, p, hp, hr, rfl⟩
    refine ⟨r, hr, ?_⟩
    obtain rfl | rfl | rfl | rfl : p = 0 ∨ p = 1 ∨ p = 2 ∨ p = 3 := by omega
    all_goals simp

@[simp] theorem permute_get (B : Block) (i : Nat) (h : i < 16) : (permute B)[i] = B[(4 * (16 - i) + i) % 16] := by
  simp [permute]

end Sys2Proof.Machine
end

