-- ==== Sys2Proof/Laws/Memory.lean ====
section
/-! SUPPORT. The laws of the byte stores: read after write, canonical form, runs of bytes, and the check that a command's
reads are written. -/

namespace Sys2Proof.Machine

@[simp] theorem Memory.read_nil (a : Nat) : Memory.read [] a = none := rfl

@[simp] theorem Memory.read_cons (c : Host.Cell) (m : Memory) (a : Nat) :
    Memory.read (c :: m) a = if c.1 = a then some c.2 else Memory.read m a := rfl

/-- A read after a write: the byte written at its offset, the old contents elsewhere. -/
theorem Memory.read_write (m : Memory) (a : Nat) (b : Byte) (x : Nat) :
    (m.write a b).read x = if x = a then some b else m.read x := by
  induction m with
  | nil => simp [Memory.write, eq_comm]
  | cons c m ih =>
    simp only [Memory.write]
    split
    · simp only [Memory.read_cons, eq_comm]
    · split
      · rename_i h
        simp only [Memory.read_cons, h]
        by_cases hx : x = a
        · simp [hx]
        · simp [hx, Ne.symm hx]
      · rename_i h
        simp only [Memory.read_cons, ih]
        by_cases hx : x = a
        · subst hx; simp [h]
        · simp [hx]

@[simp] theorem Memory.read_write_same (m : Memory) (a : Nat) (b : Byte) : (m.write a b).read a = some b := by
  simp [Memory.read_write]

theorem Memory.read_write_other (m : Memory) {a x : Nat} (b : Byte) (h : x ≠ a) : (m.write a b).read x = m.read x := by
  simp [Memory.read_write, h]

/-- A run of bytes written from `a` up: inside it the byte at that place, outside it the old contents. -/
theorem Memory.read_writeBytes (bs : List Byte) : ∀ (m : Memory) (a x : Nat),
    (m.writeBytes a bs).read x = if a ≤ x ∧ x < a + bs.length then bs[x - a]? else m.read x := by
  induction bs with
  | nil => intro m a x; simp [Memory.writeBytes]
  | cons b bs ih =>
    intro m a x
    simp only [Memory.writeBytes, ih, List.length_cons, Memory.read_write]
    by_cases h1 : x = a
    · subst h1; simp
    · by_cases h2 : a + 1 ≤ x ∧ x < a + 1 + bs.length
      · have h3 : x - a = (x - (a + 1)) + 1 := by omega
        rw [if_pos h2, if_pos (by omega), h3, List.getElem?_cons_succ]
      · rw [if_neg h2, if_neg h1, if_neg (by omega)]

theorem Memory.read_writeBytes_inside (m : Memory) (a i : Nat) (bs : List Byte) (h : i < bs.length) :
    (m.writeBytes a bs).read (a + i) = some bs[i] := by
  rw [Memory.read_writeBytes, if_pos ⟨by omega, by omega⟩]
  simp [h]

theorem Memory.read_writeBytes_outside (m : Memory) (a x : Nat) (bs : List Byte) (h : x < a ∨ a + bs.length ≤ x) :
    (m.writeBytes a bs).read x = m.read x := by
  rw [Memory.read_writeBytes, if_neg (by omega)]

/-- A write into a canonical list whose offsets all exceed `k` leaves a list whose offsets all exceed `k`. -/
theorem Memory.wf_cons_write (m : Memory) (a : Nat) (b : Byte) :
    ∀ c : Host.Cell, Memory.wf (c :: m) = true → c.1 < a → Memory.wf (c :: m.write a b) = true := by
  induction m with
  | nil => intro c _ h; simp [Memory.write, Memory.wf, h]
  | cons d m ih =>
    intro c hw h
    simp only [Memory.wf, Bool.and_eq_true, decide_eq_true_eq] at hw
    simp only [Memory.write]
    split
    · rename_i h1
      simp [Memory.wf, h, h1, hw.2]
    · split
      · rename_i h1 h2
        cases m with
        | nil => simp [Memory.wf, h]
        | cons e m =>
          simp only [Memory.wf, Bool.and_eq_true, decide_eq_true_eq] at hw ⊢
          exact ⟨h, by omega, hw.2.2⟩
      · rename_i h1 h2
        have := ih d hw.2 (by omega)
        simp [Memory.wf, hw.1, this]

/-- A write keeps the canonical form. -/
theorem Memory.wf_write (m : Memory) (a : Nat) (b : Byte) (h : m.wf = true) : (m.write a b).wf = true := by
  cases m with
  | nil => rfl
  | cons c m =>
    simp only [Memory.write]
    split
    · rename_i h1
      simp [Memory.wf, h1, h]
    · split
      · rename_i h1 h2
        cases m with
        | nil => rfl
        | cons d m =>
          simp only [Memory.wf, Bool.and_eq_true, decide_eq_true_eq] at h ⊢
          exact ⟨by omega, h.2⟩
      · rename_i h1 h2
        exact Memory.wf_cons_write m a b c h (by omega)

/-- A run of writes keeps the canonical form. -/
theorem Memory.wf_writeBytes (bs : List Byte) : ∀ (m : Memory) (a : Nat), m.wf = true → (m.writeBytes a bs).wf = true := by
  induction bs with
  | nil => intro m a h; exact h
  | cons b bs ih => intro m a h; exact ih _ _ (Memory.wf_write m a b h)

theorem Memory.wf_memWriteBlock (m : Memory) (a : Nat) (B : Block) (h : m.wf = true) : (memWriteBlock m a B).wf = true :=
  Memory.wf_writeBytes _ _ _ h

theorem Memory.wf_tail {c : Host.Cell} {m : Memory} (h : Memory.wf (c :: m) = true) : m.wf = true := by
  cases m with
  | nil => rfl
  | cons d m => simp only [Memory.wf, Bool.and_eq_true] at h; exact h.2

/-- In a canonical list every offset after the first exceeds it. -/
theorem Memory.wf_head_lt {c : Host.Cell} {m : Memory} (h : Memory.wf (c :: m) = true) :
    ∀ d ∈ m, c.1 < d.1 := by
  induction m generalizing c with
  | nil => simp
  | cons e m ih =>
    simp only [Memory.wf, Bool.and_eq_true, decide_eq_true_eq] at h
    intro d hd
    rcases List.mem_cons.mp hd with rfl | hd
    · exact h.1
    · exact Nat.lt_trans h.1 (ih h.2 d hd)

theorem Memory.read_none_of_lt {m : Memory} {x : Nat} (h : ∀ d ∈ m, x < d.1) : m.read x = none := by
  induction m with
  | nil => rfl
  | cons e m ih =>
    have h1 := h e (by simp)
    rw [Memory.read_cons, if_neg (by omega)]
    exact ih fun d hd => h d (by simp [hd])

/-- Canonical stores that read the same everywhere are equal. -/
theorem Memory.ext_of_wf : ∀ (m n : Memory), m.wf = true → n.wf = true → (∀ a, m.read a = n.read a) → m = n := by
  intro m
  induction m with
  | nil =>
    intro n _ _ h
    cases n with
    | nil => rfl
    | cons d n => have := h d.1; simp at this
  | cons c m ih =>
    intro n hm hn h
    cases n with
    | nil => have := h c.1; simp at this
    | cons d n =>
      have hcd : c.1 = d.1 := by
        rcases Nat.lt_trichotomy c.1 d.1 with hl | he | hg
        · have h1 := h c.1
          rw [Memory.read_cons, if_pos rfl, Memory.read_none_of_lt] at h1
          · simp at h1
          · intro e he
            rcases List.mem_cons.mp he with rfl | he
            · exact hl
            · exact Nat.lt_trans hl (Memory.wf_head_lt hn e he)
        · exact he
        · have h1 := h d.1
          rw [Memory.read_cons (c := d), if_pos rfl, Memory.read_none_of_lt] at h1
          · simp at h1
          · intro e he
            rcases List.mem_cons.mp he with rfl | he
            · exact hg
            · exact Nat.lt_trans hg (Memory.wf_head_lt hm e he)
      have hb : c.2 = d.2 := by
        have h1 := h c.1
        rw [Memory.read_cons, if_pos rfl, Memory.read_cons, if_pos hcd.symm] at h1
        exact Option.some.inj h1
      have hmn : m = n := by
        refine ih n (Memory.wf_tail hm) (Memory.wf_tail hn) fun a => ?_
        by_cases ha : a = c.1
        · rw [Memory.read_none_of_lt, Memory.read_none_of_lt]
          · intro e he; rw [ha, hcd]; exact Memory.wf_head_lt hn e he
          · intro e he; rw [ha]; exact Memory.wf_head_lt hm e he
        · have h1 := h a
          rwa [Memory.read_cons, if_neg (Ne.symm ha), Memory.read_cons, if_neg (by omega)] at h1
      rw [hmn, Prod.ext hcd hb]

/-- The stores are canonical right after reset. -/
theorem State.reset_mem_wf : State.reset.mem.wf = true := rfl

/-! ## Written bytes -/

theorem Memory.written_iff (m : Memory) (a : Nat) : m.written a = true ↔ ∃ b, m.read a = some b := by
  simp [Memory.written, Option.isSome_iff_exists]

theorem Memory.written_writeBytes (m : Memory) (a x : Nat) (bs : List Byte) :
    (m.writeBytes a bs).written x = true ↔ (a ≤ x ∧ x < a + bs.length) ∨ m.written x = true := by
  unfold Memory.written
  rw [Memory.read_writeBytes]
  by_cases h : a ≤ x ∧ x < a + bs.length
  · rw [if_pos h]
    have : x - a < bs.length := by omega
    simp [h, this]
  · simp [h]

/-- The check passes exactly when every offset is written. -/
theorem requireWritten_eq_ok (m : Memory) (stop : Nat → Fault) (l : List Nat) :
    requireWritten m stop l = .ok () ↔ ∀ a ∈ l, m.written a = true := by
  induction l with
  | nil => simp [requireWritten]
  | cons a l ih =>
    simp only [requireWritten, List.forall_mem_cons, Memory.written]
    cases h : m.read a with
    | none => simp
    | some b => simp only [ih, Option.isSome_some, true_and]; rfl

/-- The check stops at an offset of the list that is unwritten. -/
theorem requireWritten_eq_error (m : Memory) (stop : Nat → Fault) (l : List Nat) (f : Fault)
    (h : requireWritten m stop l = .error f) : ∃ a ∈ l, m.read a = none ∧ f = stop a := by
  induction l with
  | nil => simp [requireWritten] at h
  | cons a l ih =>
    simp only [requireWritten] at h
    cases hr : m.read a with
    | none =>
      rw [hr] at h
      simp only [Except.error.injEq] at h
      exact ⟨a, by simp, hr, h.symm⟩
    | some b =>
      rw [hr] at h
      obtain ⟨x, hx, h1, h2⟩ := ih h
      exact ⟨x, by simp [hx], h1, h2⟩

/-- The check either passes or stops. -/
theorem requireWritten_cases (m : Memory) (stop : Nat → Fault) (l : List Nat) :
    ((∀ a ∈ l, m.written a = true) ∧ requireWritten m stop l = .ok ()) ∨
      ∃ a ∈ l, m.read a = none ∧ requireWritten m stop l = .error (stop a) := by
  cases h : requireWritten m stop l with
  | ok u => exact .inl ⟨(requireWritten_eq_ok m stop l).1 h, rfl⟩
  | error f =>
    obtain ⟨a, ha, hn, rfl⟩ := requireWritten_eq_error m stop l f h
    exact .inr ⟨a, ha, hn, rfl⟩

end Sys2Proof.Machine
end

