-- ==== Sys2Proof/Laws/State.lean ====
section
/-! SUPPORT. What each named update of the state leaves in each field: one lemma per field per update, true by
unfolding, so that no later proof unfolds a record update; and each update
as the record update it is (its `_eq` lemma), for statements written as one. -/

namespace Sys2Proof.Machine

/-! ## State.setErr -/

@[simp] theorem State.setErr_ready (s : State) (e : BitVec 4) : (s.setErr e).ready = s.ready := rfl
@[simp] theorem State.setErr_err (s : State) (e : BitVec 4) : (s.setErr e).err = e := rfl
@[simp] theorem State.setErr_len (s : State) (e : BitVec 4) : (s.setErr e).len = s.len := rfl
@[simp] theorem State.setErr_outLen (s : State) (e : BitVec 4) : (s.setErr e).outLen = s.outLen := rfl
@[simp] theorem State.setErr_key (s : State) (e : BitVec 4) : (s.setErr e).key = s.key := rfl
@[simp] theorem State.setErr_mixv (s : State) (e : BitVec 4) : (s.setErr e).mixv = s.mixv := rfl
@[simp] theorem State.setErr_blk (s : State) (e : BitVec 4) : (s.setErr e).blk = s.blk := rfl
@[simp] theorem State.setErr_mem (s : State) (e : BitVec 4) : (s.setErr e).mem = s.mem := rfl
@[simp] theorem State.setErr_bufBytes (s : State) (e : BitVec 4) : (s.setErr e).bufBytes = s.bufBytes := rfl
@[simp] theorem State.setErr_pending (s : State) (e : BitVec 4) : (s.setErr e).pending = s.pending := rfl
@[simp] theorem State.setErr_readLog (s : State) (e : BitVec 4) : (s.setErr e).readLog = s.readLog := rfl
@[simp] theorem State.setErr_draws (s : State) (e : BitVec 4) : (s.setErr e).draws = s.draws := rfl

theorem State.setErr_eq (s : State) (e : BitVec 4) : (s.setErr e) = { s with err := e } := rfl

/-! ## State.setReady -/

@[simp] theorem State.setReady_ready (s : State) (b : Bool) : (s.setReady b).ready = b := rfl
@[simp] theorem State.setReady_err (s : State) (b : Bool) : (s.setReady b).err = s.err := rfl
@[simp] theorem State.setReady_len (s : State) (b : Bool) : (s.setReady b).len = s.len := rfl
@[simp] theorem State.setReady_outLen (s : State) (b : Bool) : (s.setReady b).outLen = s.outLen := rfl
@[simp] theorem State.setReady_key (s : State) (b : Bool) : (s.setReady b).key = s.key := rfl
@[simp] theorem State.setReady_mixv (s : State) (b : Bool) : (s.setReady b).mixv = s.mixv := rfl
@[simp] theorem State.setReady_blk (s : State) (b : Bool) : (s.setReady b).blk = s.blk := rfl
@[simp] theorem State.setReady_mem (s : State) (b : Bool) : (s.setReady b).mem = s.mem := rfl
@[simp] theorem State.setReady_bufBytes (s : State) (b : Bool) : (s.setReady b).bufBytes = s.bufBytes := rfl
@[simp] theorem State.setReady_pending (s : State) (b : Bool) : (s.setReady b).pending = s.pending := rfl
@[simp] theorem State.setReady_readLog (s : State) (b : Bool) : (s.setReady b).readLog = s.readLog := rfl
@[simp] theorem State.setReady_draws (s : State) (b : Bool) : (s.setReady b).draws = s.draws := rfl

theorem State.setReady_eq (s : State) (b : Bool) : (s.setReady b) = { s with ready := b } := rfl

/-! ## State.setLen -/

@[simp] theorem State.setLen_ready (s : State) (v : Word) : (s.setLen v).ready = s.ready := rfl
@[simp] theorem State.setLen_err (s : State) (v : Word) : (s.setLen v).err = s.err := rfl
@[simp] theorem State.setLen_len (s : State) (v : Word) : (s.setLen v).len = v := rfl
@[simp] theorem State.setLen_outLen (s : State) (v : Word) : (s.setLen v).outLen = s.outLen := rfl
@[simp] theorem State.setLen_key (s : State) (v : Word) : (s.setLen v).key = s.key := rfl
@[simp] theorem State.setLen_mixv (s : State) (v : Word) : (s.setLen v).mixv = s.mixv := rfl
@[simp] theorem State.setLen_blk (s : State) (v : Word) : (s.setLen v).blk = s.blk := rfl
@[simp] theorem State.setLen_mem (s : State) (v : Word) : (s.setLen v).mem = s.mem := rfl
@[simp] theorem State.setLen_bufBytes (s : State) (v : Word) : (s.setLen v).bufBytes = s.bufBytes := rfl
@[simp] theorem State.setLen_pending (s : State) (v : Word) : (s.setLen v).pending = s.pending := rfl
@[simp] theorem State.setLen_readLog (s : State) (v : Word) : (s.setLen v).readLog = s.readLog := rfl
@[simp] theorem State.setLen_draws (s : State) (v : Word) : (s.setLen v).draws = s.draws := rfl

theorem State.setLen_eq (s : State) (v : Word) : (s.setLen v) = { s with len := v } := rfl

/-! ## State.setOutLen -/

@[simp] theorem State.setOutLen_ready (s : State) (v : Word) : (s.setOutLen v).ready = s.ready := rfl
@[simp] theorem State.setOutLen_err (s : State) (v : Word) : (s.setOutLen v).err = s.err := rfl
@[simp] theorem State.setOutLen_len (s : State) (v : Word) : (s.setOutLen v).len = s.len := rfl
@[simp] theorem State.setOutLen_outLen (s : State) (v : Word) : (s.setOutLen v).outLen = v := rfl
@[simp] theorem State.setOutLen_key (s : State) (v : Word) : (s.setOutLen v).key = s.key := rfl
@[simp] theorem State.setOutLen_mixv (s : State) (v : Word) : (s.setOutLen v).mixv = s.mixv := rfl
@[simp] theorem State.setOutLen_blk (s : State) (v : Word) : (s.setOutLen v).blk = s.blk := rfl
@[simp] theorem State.setOutLen_mem (s : State) (v : Word) : (s.setOutLen v).mem = s.mem := rfl
@[simp] theorem State.setOutLen_bufBytes (s : State) (v : Word) : (s.setOutLen v).bufBytes = s.bufBytes := rfl
@[simp] theorem State.setOutLen_pending (s : State) (v : Word) : (s.setOutLen v).pending = s.pending := rfl
@[simp] theorem State.setOutLen_readLog (s : State) (v : Word) : (s.setOutLen v).readLog = s.readLog := rfl
@[simp] theorem State.setOutLen_draws (s : State) (v : Word) : (s.setOutLen v).draws = s.draws := rfl

theorem State.setOutLen_eq (s : State) (v : Word) : (s.setOutLen v) = { s with outLen := v } := rfl

/-! ## State.setKey -/

@[simp] theorem State.setKey_ready (s : State) (k : Vector Byte 16) : (s.setKey k).ready = s.ready := rfl
@[simp] theorem State.setKey_err (s : State) (k : Vector Byte 16) : (s.setKey k).err = s.err := rfl
@[simp] theorem State.setKey_len (s : State) (k : Vector Byte 16) : (s.setKey k).len = s.len := rfl
@[simp] theorem State.setKey_outLen (s : State) (k : Vector Byte 16) : (s.setKey k).outLen = s.outLen := rfl
@[simp] theorem State.setKey_key (s : State) (k : Vector Byte 16) : (s.setKey k).key = k := rfl
@[simp] theorem State.setKey_mixv (s : State) (k : Vector Byte 16) : (s.setKey k).mixv = s.mixv := rfl
@[simp] theorem State.setKey_blk (s : State) (k : Vector Byte 16) : (s.setKey k).blk = s.blk := rfl
@[simp] theorem State.setKey_mem (s : State) (k : Vector Byte 16) : (s.setKey k).mem = s.mem := rfl
@[simp] theorem State.setKey_bufBytes (s : State) (k : Vector Byte 16) : (s.setKey k).bufBytes = s.bufBytes := rfl
@[simp] theorem State.setKey_pending (s : State) (k : Vector Byte 16) : (s.setKey k).pending = s.pending := rfl
@[simp] theorem State.setKey_readLog (s : State) (k : Vector Byte 16) : (s.setKey k).readLog = s.readLog := rfl
@[simp] theorem State.setKey_draws (s : State) (k : Vector Byte 16) : (s.setKey k).draws = s.draws := rfl

theorem State.setKey_eq (s : State) (k : Vector Byte 16) : (s.setKey k) = { s with key := k } := rfl

/-! ## State.setMixv -/

@[simp] theorem State.setMixv_ready (s : State) (x : Vector Byte 10) : (s.setMixv x).ready = s.ready := rfl
@[simp] theorem State.setMixv_err (s : State) (x : Vector Byte 10) : (s.setMixv x).err = s.err := rfl
@[simp] theorem State.setMixv_len (s : State) (x : Vector Byte 10) : (s.setMixv x).len = s.len := rfl
@[simp] theorem State.setMixv_outLen (s : State) (x : Vector Byte 10) : (s.setMixv x).outLen = s.outLen := rfl
@[simp] theorem State.setMixv_key (s : State) (x : Vector Byte 10) : (s.setMixv x).key = s.key := rfl
@[simp] theorem State.setMixv_mixv (s : State) (x : Vector Byte 10) : (s.setMixv x).mixv = x := rfl
@[simp] theorem State.setMixv_blk (s : State) (x : Vector Byte 10) : (s.setMixv x).blk = s.blk := rfl
@[simp] theorem State.setMixv_mem (s : State) (x : Vector Byte 10) : (s.setMixv x).mem = s.mem := rfl
@[simp] theorem State.setMixv_bufBytes (s : State) (x : Vector Byte 10) : (s.setMixv x).bufBytes = s.bufBytes := rfl
@[simp] theorem State.setMixv_pending (s : State) (x : Vector Byte 10) : (s.setMixv x).pending = s.pending := rfl
@[simp] theorem State.setMixv_readLog (s : State) (x : Vector Byte 10) : (s.setMixv x).readLog = s.readLog := rfl
@[simp] theorem State.setMixv_draws (s : State) (x : Vector Byte 10) : (s.setMixv x).draws = s.draws := rfl

theorem State.setMixv_eq (s : State) (x : Vector Byte 10) : (s.setMixv x) = { s with mixv := x } := rfl

/-! ## State.setBlk -/

@[simp] theorem State.setBlk_ready (s : State) (b : Vector Byte 16) : (s.setBlk b).ready = s.ready := rfl
@[simp] theorem State.setBlk_err (s : State) (b : Vector Byte 16) : (s.setBlk b).err = s.err := rfl
@[simp] theorem State.setBlk_len (s : State) (b : Vector Byte 16) : (s.setBlk b).len = s.len := rfl
@[simp] theorem State.setBlk_outLen (s : State) (b : Vector Byte 16) : (s.setBlk b).outLen = s.outLen := rfl
@[simp] theorem State.setBlk_key (s : State) (b : Vector Byte 16) : (s.setBlk b).key = s.key := rfl
@[simp] theorem State.setBlk_mixv (s : State) (b : Vector Byte 16) : (s.setBlk b).mixv = s.mixv := rfl
@[simp] theorem State.setBlk_blk (s : State) (b : Vector Byte 16) : (s.setBlk b).blk = b := rfl
@[simp] theorem State.setBlk_mem (s : State) (b : Vector Byte 16) : (s.setBlk b).mem = s.mem := rfl
@[simp] theorem State.setBlk_bufBytes (s : State) (b : Vector Byte 16) : (s.setBlk b).bufBytes = s.bufBytes := rfl
@[simp] theorem State.setBlk_pending (s : State) (b : Vector Byte 16) : (s.setBlk b).pending = s.pending := rfl
@[simp] theorem State.setBlk_readLog (s : State) (b : Vector Byte 16) : (s.setBlk b).readLog = s.readLog := rfl
@[simp] theorem State.setBlk_draws (s : State) (b : Vector Byte 16) : (s.setBlk b).draws = s.draws := rfl

theorem State.setBlk_eq (s : State) (b : Vector Byte 16) : (s.setBlk b) = { s with blk := b } := rfl

/-! ## State.setMem -/

@[simp] theorem State.setMem_ready (s : State) (m : Memory) : (s.setMem m).ready = s.ready := rfl
@[simp] theorem State.setMem_err (s : State) (m : Memory) : (s.setMem m).err = s.err := rfl
@[simp] theorem State.setMem_len (s : State) (m : Memory) : (s.setMem m).len = s.len := rfl
@[simp] theorem State.setMem_outLen (s : State) (m : Memory) : (s.setMem m).outLen = s.outLen := rfl
@[simp] theorem State.setMem_key (s : State) (m : Memory) : (s.setMem m).key = s.key := rfl
@[simp] theorem State.setMem_mixv (s : State) (m : Memory) : (s.setMem m).mixv = s.mixv := rfl
@[simp] theorem State.setMem_blk (s : State) (m : Memory) : (s.setMem m).blk = s.blk := rfl
@[simp] theorem State.setMem_mem (s : State) (m : Memory) : (s.setMem m).mem = m := rfl
@[simp] theorem State.setMem_bufBytes (s : State) (m : Memory) : (s.setMem m).bufBytes = s.bufBytes := rfl
@[simp] theorem State.setMem_pending (s : State) (m : Memory) : (s.setMem m).pending = s.pending := rfl
@[simp] theorem State.setMem_readLog (s : State) (m : Memory) : (s.setMem m).readLog = s.readLog := rfl
@[simp] theorem State.setMem_draws (s : State) (m : Memory) : (s.setMem m).draws = s.draws := rfl

theorem State.setMem_eq (s : State) (m : Memory) : (s.setMem m) = { s with mem := m } := rfl

/-! ## State.setPending -/

@[simp] theorem State.setPending_ready (s : State) (p : List HostEvent) : (s.setPending p).ready = s.ready := rfl
@[simp] theorem State.setPending_err (s : State) (p : List HostEvent) : (s.setPending p).err = s.err := rfl
@[simp] theorem State.setPending_len (s : State) (p : List HostEvent) : (s.setPending p).len = s.len := rfl
@[simp] theorem State.setPending_outLen (s : State) (p : List HostEvent) : (s.setPending p).outLen = s.outLen := rfl
@[simp] theorem State.setPending_key (s : State) (p : List HostEvent) : (s.setPending p).key = s.key := rfl
@[simp] theorem State.setPending_mixv (s : State) (p : List HostEvent) : (s.setPending p).mixv = s.mixv := rfl
@[simp] theorem State.setPending_blk (s : State) (p : List HostEvent) : (s.setPending p).blk = s.blk := rfl
@[simp] theorem State.setPending_mem (s : State) (p : List HostEvent) : (s.setPending p).mem = s.mem := rfl
@[simp] theorem State.setPending_bufBytes (s : State) (p : List HostEvent) : (s.setPending p).bufBytes = s.bufBytes := rfl
@[simp] theorem State.setPending_pending (s : State) (p : List HostEvent) : (s.setPending p).pending = p := rfl
@[simp] theorem State.setPending_readLog (s : State) (p : List HostEvent) : (s.setPending p).readLog = s.readLog := rfl
@[simp] theorem State.setPending_draws (s : State) (p : List HostEvent) : (s.setPending p).draws = s.draws := rfl

theorem State.setPending_eq (s : State) (p : List HostEvent) : (s.setPending p) = { s with pending := p } := rfl

/-! ## State.logRead -/

@[simp] theorem State.logRead_ready (s : State) (v : Word) : (s.logRead v).ready = s.ready := rfl
@[simp] theorem State.logRead_err (s : State) (v : Word) : (s.logRead v).err = s.err := rfl
@[simp] theorem State.logRead_len (s : State) (v : Word) : (s.logRead v).len = s.len := rfl
@[simp] theorem State.logRead_outLen (s : State) (v : Word) : (s.logRead v).outLen = s.outLen := rfl
@[simp] theorem State.logRead_key (s : State) (v : Word) : (s.logRead v).key = s.key := rfl
@[simp] theorem State.logRead_mixv (s : State) (v : Word) : (s.logRead v).mixv = s.mixv := rfl
@[simp] theorem State.logRead_blk (s : State) (v : Word) : (s.logRead v).blk = s.blk := rfl
@[simp] theorem State.logRead_mem (s : State) (v : Word) : (s.logRead v).mem = s.mem := rfl
@[simp] theorem State.logRead_bufBytes (s : State) (v : Word) : (s.logRead v).bufBytes = s.bufBytes := rfl
@[simp] theorem State.logRead_pending (s : State) (v : Word) : (s.logRead v).pending = s.pending := rfl
@[simp] theorem State.logRead_readLog (s : State) (v : Word) : (s.logRead v).readLog = s.readLog ++ [v] := rfl
@[simp] theorem State.logRead_draws (s : State) (v : Word) : (s.logRead v).draws = s.draws + 4 := rfl

theorem State.logRead_eq (s : State) (v : Word) : (s.logRead v) = { s with readLog := s.readLog ++ [v], draws := s.draws + 4 } := rfl

/-! ## State.raise -/

@[simp] theorem State.raise_ready (s : State) (e : ErrCode) : (s.raise e).ready = s.ready := rfl
@[simp] theorem State.raise_err (s : State) (e : ErrCode) : (s.raise e).err = e.code := rfl
@[simp] theorem State.raise_len (s : State) (e : ErrCode) : (s.raise e).len = s.len := rfl
@[simp] theorem State.raise_outLen (s : State) (e : ErrCode) : (s.raise e).outLen = s.outLen := rfl
@[simp] theorem State.raise_key (s : State) (e : ErrCode) : (s.raise e).key = s.key := rfl
@[simp] theorem State.raise_mixv (s : State) (e : ErrCode) : (s.raise e).mixv = s.mixv := rfl
@[simp] theorem State.raise_blk (s : State) (e : ErrCode) : (s.raise e).blk = s.blk := rfl
@[simp] theorem State.raise_mem (s : State) (e : ErrCode) : (s.raise e).mem = s.mem := rfl
@[simp] theorem State.raise_bufBytes (s : State) (e : ErrCode) : (s.raise e).bufBytes = s.bufBytes := rfl
@[simp] theorem State.raise_pending (s : State) (e : ErrCode) : (s.raise e).pending = s.pending := rfl
@[simp] theorem State.raise_readLog (s : State) (e : ErrCode) : (s.raise e).readLog = s.readLog := rfl
@[simp] theorem State.raise_draws (s : State) (e : ErrCode) : (s.raise e).draws = s.draws := rfl

theorem State.raise_eq (s : State) (e : ErrCode) : (s.raise e) = { s with err := e.code } := rfl

/-! ## State.succeed -/

@[simp] theorem State.succeed_ready (s : State) : s.succeed.ready = s.ready := rfl
@[simp] theorem State.succeed_err (s : State) : s.succeed.err = 0#4 := rfl
@[simp] theorem State.succeed_len (s : State) : s.succeed.len = s.len := rfl
@[simp] theorem State.succeed_outLen (s : State) : s.succeed.outLen = s.outLen := rfl
@[simp] theorem State.succeed_key (s : State) : s.succeed.key = s.key := rfl
@[simp] theorem State.succeed_mixv (s : State) : s.succeed.mixv = s.mixv := rfl
@[simp] theorem State.succeed_blk (s : State) : s.succeed.blk = s.blk := rfl
@[simp] theorem State.succeed_mem (s : State) : s.succeed.mem = s.mem := rfl
@[simp] theorem State.succeed_bufBytes (s : State) : s.succeed.bufBytes = s.bufBytes := rfl
@[simp] theorem State.succeed_pending (s : State) : s.succeed.pending = s.pending := rfl
@[simp] theorem State.succeed_readLog (s : State) : s.succeed.readLog = s.readLog := rfl
@[simp] theorem State.succeed_draws (s : State) : s.succeed.draws = s.draws := rfl

theorem State.succeed_eq (s : State) : s.succeed = { s with err := 0#4 } := rfl

/-! ## State.raiseDbuf -/

@[simp] theorem State.raiseDbuf_ready (s : State) (e : ErrCode) : (s.raiseDbuf e).ready = s.ready := rfl
@[simp] theorem State.raiseDbuf_err (s : State) (e : ErrCode) : (s.raiseDbuf e).err = e.code := rfl
@[simp] theorem State.raiseDbuf_len (s : State) (e : ErrCode) : (s.raiseDbuf e).len = s.len := rfl
@[simp] theorem State.raiseDbuf_outLen (s : State) (e : ErrCode) : (s.raiseDbuf e).outLen = 0#32 := rfl
@[simp] theorem State.raiseDbuf_key (s : State) (e : ErrCode) : (s.raiseDbuf e).key = s.key := rfl
@[simp] theorem State.raiseDbuf_mixv (s : State) (e : ErrCode) : (s.raiseDbuf e).mixv = s.mixv := rfl
@[simp] theorem State.raiseDbuf_blk (s : State) (e : ErrCode) : (s.raiseDbuf e).blk = s.blk := rfl
@[simp] theorem State.raiseDbuf_mem (s : State) (e : ErrCode) : (s.raiseDbuf e).mem = s.mem := rfl
@[simp] theorem State.raiseDbuf_bufBytes (s : State) (e : ErrCode) : (s.raiseDbuf e).bufBytes = s.bufBytes := rfl
@[simp] theorem State.raiseDbuf_pending (s : State) (e : ErrCode) : (s.raiseDbuf e).pending = s.pending := rfl
@[simp] theorem State.raiseDbuf_readLog (s : State) (e : ErrCode) : (s.raiseDbuf e).readLog = s.readLog := rfl
@[simp] theorem State.raiseDbuf_draws (s : State) (e : ErrCode) : (s.raiseDbuf e).draws = s.draws := rfl

theorem State.raiseDbuf_eq (s : State) (e : ErrCode) : (s.raiseDbuf e) = { s with err := e.code, outLen := 0#32 } := rfl

/-! ## State.configWritten -/

@[simp] theorem State.configWritten_ready (s : State) : s.configWritten.ready = false := rfl
@[simp] theorem State.configWritten_err (s : State) : s.configWritten.err = s.err := rfl
@[simp] theorem State.configWritten_len (s : State) : s.configWritten.len = s.len := rfl
@[simp] theorem State.configWritten_outLen (s : State) : s.configWritten.outLen = s.outLen := rfl
@[simp] theorem State.configWritten_key (s : State) : s.configWritten.key = s.key := rfl
@[simp] theorem State.configWritten_mixv (s : State) : s.configWritten.mixv = s.mixv := rfl
@[simp] theorem State.configWritten_blk (s : State) : s.configWritten.blk = s.blk := rfl
@[simp] theorem State.configWritten_mem (s : State) : s.configWritten.mem = s.mem := rfl
@[simp] theorem State.configWritten_bufBytes (s : State) : s.configWritten.bufBytes = s.bufBytes := rfl
@[simp] theorem State.configWritten_pending (s : State) : s.configWritten.pending = s.pending := rfl
@[simp] theorem State.configWritten_readLog (s : State) : s.configWritten.readLog = s.readLog := rfl
@[simp] theorem State.configWritten_draws (s : State) : s.configWritten.draws = s.draws := rfl

theorem State.configWritten_eq (s : State) : s.configWritten = { s with ready := false } := rfl

/-! ## State.scheduleValid -/

@[simp] theorem State.scheduleValid_ready (s : State) : s.scheduleValid.ready = true := rfl
@[simp] theorem State.scheduleValid_err (s : State) : s.scheduleValid.err = s.err := rfl
@[simp] theorem State.scheduleValid_len (s : State) : s.scheduleValid.len = s.len := rfl
@[simp] theorem State.scheduleValid_outLen (s : State) : s.scheduleValid.outLen = s.outLen := rfl
@[simp] theorem State.scheduleValid_key (s : State) : s.scheduleValid.key = s.key := rfl
@[simp] theorem State.scheduleValid_mixv (s : State) : s.scheduleValid.mixv = s.mixv := rfl
@[simp] theorem State.scheduleValid_blk (s : State) : s.scheduleValid.blk = s.blk := rfl
@[simp] theorem State.scheduleValid_mem (s : State) : s.scheduleValid.mem = s.mem := rfl
@[simp] theorem State.scheduleValid_bufBytes (s : State) : s.scheduleValid.bufBytes = s.bufBytes := rfl
@[simp] theorem State.scheduleValid_pending (s : State) : s.scheduleValid.pending = s.pending := rfl
@[simp] theorem State.scheduleValid_readLog (s : State) : s.scheduleValid.readLog = s.readLog := rfl
@[simp] theorem State.scheduleValid_draws (s : State) : s.scheduleValid.draws = s.draws := rfl

theorem State.scheduleValid_eq (s : State) : s.scheduleValid = { s with ready := true } := rfl

end Sys2Proof.Machine
end

