-- ==== Sys2Proof/Laws/Commands.lean ====
section
/-! SUPPORT. One lemma per shared operation of the commands: everything it can answer. -/

namespace Sys2Proof.Machine

/-! ## Tables and schedule as functions of what the stores read -/

theorem Memory.sbox_congr {m n : Memory} {t : Nat} {x : Byte} (h : n.read (sboxOff t x) = m.read (sboxOff t x)) :
    n.sbox t x = m.sbox t x := by simp [Memory.sbox, h]

theorem Memory.sched_congr {m n : Memory} {k : Nat} (h : n.read (schedOff k) = m.read (schedOff k)) :
    n.sched k = m.sched k := by simp [Memory.sched, h]

theorem Memory.read_eq_sbox {m : Memory} {t : Nat} {x : Byte} (h : m.written (sboxOff t x) = true) :
    m.read (sboxOff t x) = some (m.sbox t x) := by
  obtain ⟨b, hb⟩ := (m.written_iff _).1 h
  simp [Memory.sbox, hb]

theorem Memory.read_eq_sched {m : Memory} {k : Nat} (h : m.written (schedOff k) = true) :
    m.read (schedOff k) = some (m.sched k) := by
  obtain ⟨b, hb⟩ := (m.written_iff _).1 h
  simp [Memory.sched, hb]

theorem Memory.read_eq_buf {m : Memory} {a : Nat} (h : m.written (bufOff a) = true) :
    m.read (bufOff a) = some (m.buf a) := by
  obtain ⟨b, hb⟩ := (m.written_iff _).1 h
  simp [Memory.buf, hb]

theorem requireWritten_congr {m n : Memory} {stop : Nat → Fault} {l : List Nat} (h : ∀ a ∈ l, n.read a = m.read a) :
    requireWritten n stop l = requireWritten m stop l := by
  induction l with
  | nil => rfl
  | cons a l ih =>
    simp only [requireWritten, h a (by simp)]
    rw [ih fun x hx => h x (by simp [hx])]

/-- A checked pure value: the check and then the value, or the check's fault. -/
theorem checked_eq_ok {α : Type} {m : Memory} {stop : Nat → Fault} {l : List Nat} {v w : α} :
    (do requireWritten m stop l; return v : Except Fault α) = .ok w ↔ (∀ a ∈ l, m.written a = true) ∧ w = v := by
  rcases requireWritten_cases m stop l with ⟨h, e⟩ | ⟨a, ha, hn, e⟩
  · simp only [e, bind, Except.bind, pure, Except.pure, Except.ok.injEq]
    exact ⟨fun hw => ⟨h, hw.symm⟩, fun hw => hw.2.symm⟩
  · simp only [e, bind, Except.bind]
    refine ⟨fun h => by simp at h, fun h => ?_⟩
    have := h.1 a ha
    simp [Memory.written, hn] at this

theorem checked_eq_error {α : Type} {m : Memory} {stop : Nat → Fault} {l : List Nat} {v : α} {f : Fault}
    (h : (do requireWritten m stop l; return v : Except Fault α) = .error f) :
    ∃ a ∈ l, m.read a = none ∧ f = stop a := by
  rcases requireWritten_cases m stop l with ⟨_, e⟩ | ⟨a, ha, hn, e⟩
  · simp [e, bind, Except.bind, pure, Except.pure] at h
  · simp only [e, bind, Except.bind, Except.error.injEq] at h
    exact ⟨a, ha, hn, h.symm⟩

/-! ## Substitute -/

theorem mem_block_toList {B : Block} {x : Byte} : x ∈ B.toList ↔ ∃ i : Fin 16, B[i] = x := by
  rw [Vector.mem_toList_iff, Vector.mem_iff_getElem]
  exact ⟨fun ⟨i, h, e⟩ => ⟨⟨i, h⟩, e⟩, fun ⟨i, e⟩ => ⟨i.val, i.isLt, e⟩⟩

theorem substituteStep_eq_ok (m : Memory) (B C : Block) :
    substituteStep m B = .ok C ↔ (∀ i : Fin 16, m.written (sboxOff 7 B[i]) = true) ∧ C = substitute (m.sbox 7) B := by
  unfold substituteStep
  rw [checked_eq_ok]
  refine and_congr_left fun _ => ?_
  simp only [List.mem_map, mem_block_toList]
  exact ⟨fun h i => h _ ⟨B[i], ⟨i, rfl⟩, rfl⟩, by rintro h a ⟨x, ⟨i, rfl⟩, rfl⟩; exact h i⟩

theorem substituteStep_eq_error (m : Memory) (B : Block) (f : Fault) (h : substituteStep m B = .error f) :
    ∃ i : Fin 16, m.read (sboxOff 7 B[i]) = none ∧ f = .unwrittenSbox (sboxOff 7 B[i]) := by
  obtain ⟨a, ha, hn, rfl⟩ := checked_eq_error h
  obtain ⟨x, hx, rfl⟩ := List.mem_map.1 ha
  obtain ⟨i, rfl⟩ := mem_block_toList.1 hx
  exact ⟨i, hn, rfl⟩

@[simp] theorem substitute_get (S : Byte → Byte) (B : Block) (i : Fin 16) : (substitute S B)[i] = S B[i] := by
  simp [substitute]

/-! ## MixColumn -/

/-- An output uses each input in a table of its own, never as it stands: the positions that MixColumn uses have the tables 1
to 4 (41_block_transform.md R91, R92). -/
theorem tableAt_mixPosition : ∀ o j : Fin 4, ∃ t, (1 ≤ t ∧ t ≤ 4) ∧ tableAt (mixPosition o j) = some t := by
  have h : ∀ o j : Fin 4, (tableAt (mixPosition o j)).any (fun t => 1 ≤ t && t ≤ 4) = true := by decide
  intro o j
  obtain ⟨t, ht, hb⟩ := Option.any_eq_true _ _ |>.1 (h o j)
  exact ⟨t, by simpa using hb, ht⟩

/-- Each input meets each of the tables 1 to 4 in some output (R92). -/
theorem exists_mixPosition (j : Fin 4) {t : Nat} (h1 : 1 ≤ t) (h4 : t ≤ 4) : ∃ o : Fin 4, tableAt (mixPosition o j) = some t := by
  have h : ∀ (j : Fin 4) (u : Fin 4), ∃ o : Fin 4, tableAt (mixPosition o j) = some (u.val + 1) := by decide
  have := h j ⟨t - 1, by omega⟩
  rwa [show t - 1 + 1 = t by omega] at this

/-- The lookups of a column: each of its four bytes in each of the tables 1 to 4 (R95). -/
theorem mem_mixLookups (c : Fin 4) (B : Block) (l : Nat × Byte) :
    l ∈ mixLookups c B ↔ ∃ j : Fin 4, 1 ≤ l.1 ∧ l.1 ≤ 4 ∧ l.2 = (columnBytes B c)[j] := by
  have all : ∀ k : Fin 4, k ∈ ([0, 1, 2, 3] : List (Fin 4)) := by decide
  simp only [mixLookups, List.mem_flatMap, List.mem_filterMap, Option.map_eq_some_iff]
  constructor
  · rintro ⟨o, -, j, -, t, ht, rfl⟩
    obtain ⟨u, hu, e⟩ := tableAt_mixPosition o j
    obtain rfl : u = t := Option.some.inj (e.symm.trans ht)
    exact ⟨j, hu.1, hu.2, rfl⟩
  · rintro ⟨j, h1, h4, hx⟩
    obtain ⟨o, ho⟩ := exists_mixPosition j h1 h4
    exact ⟨o, all o, j, all j, l.1, ho, Prod.ext rfl hx.symm⟩

theorem mixColumnStep_eq_ok (m : Memory) (c : Fin 4) (B C : Block) :
    mixColumnStep m c B = .ok C ↔
      (∀ (j : Fin 4) (t : Nat), 1 ≤ t → t ≤ 4 → m.written (sboxOff t (columnBytes B c)[j]) = true) ∧
        C = mixColumn m.sbox c B := by
  unfold mixColumnStep
  rw [checked_eq_ok]
  refine and_congr_left fun _ => ?_
  simp only [List.mem_map, mem_mixLookups]
  constructor
  · intro h j t h1 h2
    exact h _ ⟨(t, (columnBytes B c)[j]), ⟨j, h1, h2, rfl⟩, rfl⟩
  · rintro h a ⟨⟨t, x⟩, ⟨j, h1, h2, h3⟩, rfl⟩
    dsimp only at h1 h2 h3
    subst h3
    exact h j t h1 h2

theorem mixColumnStep_eq_error (m : Memory) (c : Fin 4) (B : Block) (f : Fault) (h : mixColumnStep m c B = .error f) :
    ∃ (j : Fin 4) (t : Nat), 1 ≤ t ∧ t ≤ 4 ∧ m.read (sboxOff t (columnBytes B c)[j]) = none ∧
      f = .unwrittenSbox (sboxOff t (columnBytes B c)[j]) := by
  obtain ⟨a, ha, hn, rfl⟩ := checked_eq_error h
  obtain ⟨⟨t, x⟩, hl, rfl⟩ := List.mem_map.1 ha
  obtain ⟨j, h1, h2, h3⟩ := (mem_mixLookups c B _).1 hl
  dsimp only at h1 h2 h3
  subst h3
  exact ⟨j, t, h1, h2, hn, rfl⟩

/-- The four rows of MixColumn with the map T and the order vector worked out (41_block_transform.md R93). -/
theorem mixOut_rows (S : Nat → Byte → Byte) (x : Vector Byte 4) :
    mixOut S x 0 = S 1 x[0] ^^^ S 3 x[1] ^^^ S 2 x[2] ^^^ S 4 x[3] ∧
    mixOut S x 1 = S 4 x[0] ^^^ S 1 x[1] ^^^ S 3 x[2] ^^^ S 2 x[3] ∧
    mixOut S x 2 = S 2 x[0] ^^^ S 4 x[1] ^^^ S 1 x[2] ^^^ S 3 x[3] ∧
    mixOut S x 3 = S 3 x[0] ^^^ S 2 x[1] ^^^ S 4 x[2] ^^^ S 1 x[3] := ⟨rfl, rfl, rfl, rfl⟩

theorem mixColumn_get (S : Nat → Byte → Byte) (c : Fin 4) (B : Block) (i : Fin 16) :
    (mixColumn S c B)[i] = if i.val / 4 = c.val then mixOut S (columnBytes B c) ⟨i.val % 4, Nat.mod_lt _ (by decide)⟩
      else B[i] := by
  simp [mixColumn]

/-- MixColumn depends on the tables 1 to 4 at the column's bytes only. -/
theorem mixColumn_congr {S T : Nat → Byte → Byte} {c : Fin 4} {B : Block}
    (h : ∀ t, 1 ≤ t → t ≤ 4 → ∀ x, T t x = S t x) : mixColumn T c B = mixColumn S c B := by
  have h1 := h 1 (by decide) (by decide)
  have h2 := h 2 (by decide) (by decide)
  have h3 := h 3 (by decide) (by decide)
  have h4 := h 4 (by decide) (by decide)
  have e : ∀ x o, mixOut T x o = mixOut S x o := by
    intro x o
    obtain ⟨a0, a1, a2, a3⟩ := mixOut_rows T x
    obtain ⟨b0, b1, b2, b3⟩ := mixOut_rows S x
    obtain rfl | rfl | rfl | rfl : o = 0 ∨ o = 1 ∨ o = 2 ∨ o = 3 := by omega
    · rw [a0, b0, h1, h2, h3, h4]
    · rw [a1, b1, h1, h2, h3, h4]
    · rw [a2, b2, h1, h2, h3, h4]
    · rw [a3, b3, h1, h2, h3, h4]
  simp only [mixColumn, e]

/-! ## AddRoundKey -/

theorem addRoundKeyStep_eq_ok (m : Memory) (r : Nat) (B C : Block) :
    addRoundKeyStep m r B = .ok C ↔
      (∀ i, i < 16 → m.written (schedOff (16 * r + i)) = true) ∧ C = addRoundKey m.sched r B := by
  unfold addRoundKeyStep
  rw [checked_eq_ok]
  refine and_congr_left fun _ => ?_
  simp [roundKeyOffsets, roundKeyOffset, blockBytes]

theorem addRoundKeyStep_eq_error (m : Memory) (r : Nat) (B : Block) (f : Fault) (h : addRoundKeyStep m r B = .error f) :
    ∃ i, i < 16 ∧ m.read (schedOff (16 * r + i)) = none ∧ f = .unwrittenSched (schedOff (16 * r + i)) := by
  obtain ⟨a, ha, hn, rfl⟩ := checked_eq_error h
  simp only [roundKeyOffsets, roundKeyOffset, blockBytes, List.mem_map, List.mem_range] at ha
  obtain ⟨i, hi, rfl⟩ := ha
  exact ⟨i, hi, hn, rfl⟩

@[simp] theorem addRoundKey_get (K : Nat → Byte) (r : Nat) (B : Block) (i : Fin 16) :
    (addRoundKey K r B)[i] = B[i] ^^^ K (16 * r + i.val) := by
  simp [addRoundKey]

/-! ## Blocks of BUF -/

theorem memReadBlock_eq_ok (m : Memory) (a : Nat) (B : Block) :
    memReadBlock m a = .ok B ↔ BufLoaded m a 16 ∧ B = bufBlock m a := by
  unfold memReadBlock bufBlock BufLoaded
  rw [checked_eq_ok]
  refine and_congr_left fun _ => ?_
  simp [bufBlockOffsets, blockBytes]

theorem memReadBlock_eq_error (m : Memory) (a : Nat) (f : Fault) (h : memReadBlock m a = .error f) :
    ∃ i, i < 16 ∧ m.read (bufOff (a + i)) = none ∧ f = .unwrittenBuf (bufOff (a + i)) := by
  obtain ⟨x, hx, hn, rfl⟩ := checked_eq_error h
  simp only [bufBlockOffsets, blockBytes, List.mem_map, List.mem_range] at hx
  obtain ⟨i, hi, rfl⟩ := hx
  exact ⟨i, hi, hn, rfl⟩

theorem read_memWriteBlock (m : Memory) (a x : Nat) (B : Block) :
    (memWriteBlock m a B).read x =
      if bufOff a ≤ x ∧ x < bufOff a + 16 then B.toList[x - bufOff a]? else m.read x := by
  unfold memWriteBlock
  rw [Memory.read_writeBytes]
  simp

theorem read_memWriteBlock_inside (m : Memory) (a : Nat) (B : Block) (i : Fin 16) :
    (memWriteBlock m a B).read (bufOff (a + i.val)) = some B[i] := by
  rw [read_memWriteBlock, if_pos (by simp only [bufOff]; omega)]
  have : bufOff (a + i.val) - bufOff a = i.val := by simp only [bufOff]; omega
  rw [this]
  simp

theorem read_memWriteBlock_outside (m : Memory) (a x : Nat) (B : Block) (h : x < bufOff a ∨ bufOff a + 16 ≤ x) :
    (memWriteBlock m a B).read x = m.read x := by
  rw [read_memWriteBlock, if_neg (by omega)]

/-! ## What the steps read: offsets below BUF only -/

theorem sboxOff_lt {t : Nat} (x : Byte) (h : t ≤ 8) : sboxOff t x < offBuf := by
  have := x.isLt
  simp only [sboxOff, offSbox, offBuf]
  omega

theorem sboxOff_ge (t : Nat) (x : Byte) : offSbox ≤ sboxOff t x := by
  simp only [sboxOff, offSbox]
  omega

theorem substituteStep_congr {m n : Memory} {B : Block} (h : ∀ x, n.read (sboxOff 7 x) = m.read (sboxOff 7 x)) :
    substituteStep n B = substituteStep m B := by
  unfold substituteStep
  rw [requireWritten_congr (m := m) (n := n) (by
    intro a ha
    obtain ⟨x, _, rfl⟩ := List.mem_map.1 ha
    exact h x)]
  have : n.sbox 7 = m.sbox 7 := funext fun x => Memory.sbox_congr (h x)
  rw [this]

theorem mixColumnStep_congr {m n : Memory} {c : Fin 4} {B : Block}
    (h : ∀ t, 1 ≤ t → t ≤ 4 → ∀ x, n.read (sboxOff t x) = m.read (sboxOff t x)) :
    mixColumnStep n c B = mixColumnStep m c B := by
  unfold mixColumnStep
  rw [requireWritten_congr (m := m) (n := n) (by
    intro a ha
    obtain ⟨⟨t, x⟩, hl, rfl⟩ := List.mem_map.1 ha
    obtain ⟨j, h1, h2, _⟩ := (mem_mixLookups c B _).1 hl
    exact h t h1 h2 x)]
  rw [mixColumn_congr (S := m.sbox) (T := n.sbox) fun t h1 h2 x => Memory.sbox_congr (h t h1 h2 x)]

theorem addRoundKey_congr {m n : Memory} {r : Nat} {B : Block} (hr : r ≤ 10)
    (h : ∀ k, k < schedBytes → n.read (schedOff k) = m.read (schedOff k)) :
    addRoundKey n.sched r B = addRoundKey m.sched r B := by
  unfold addRoundKey
  congr 1
  funext i
  rw [Memory.sched_congr (m := m) (n := n) (h _ (by simp only [schedBytes]; omega))]

theorem addRoundKeyStep_congr {m n : Memory} {r : Nat} {B : Block} (hr : r ≤ 10)
    (h : ∀ k, k < schedBytes → n.read (schedOff k) = m.read (schedOff k)) :
    addRoundKeyStep n r B = addRoundKeyStep m r B := by
  unfold addRoundKeyStep
  rw [requireWritten_congr (m := m) (n := n) (by
    intro a ha
    simp only [roundKeyOffsets, roundKeyOffset, blockBytes, List.mem_map, List.mem_range] at ha
    obtain ⟨i, hi, rfl⟩ := ha
    exact h _ (by simp only [schedBytes]; omega))]
  rw [addRoundKey_congr hr h]

/-- Two stores agree on everything a decryption reads: SCHED and the tables 1 to 4 and 7. -/
def SameDecryptReads (m n : Memory) : Prop :=
  (∀ t, (1 ≤ t ∧ t ≤ 4) ∨ t = 7 → ∀ x, n.read (sboxOff t x) = m.read (sboxOff t x)) ∧
  ∀ k, k < schedBytes → n.read (schedOff k) = m.read (schedOff k)

theorem mixAllStep_congr {m n : Memory} {B : Block} (h : SameDecryptReads m n) : mixAllStep n B = mixAllStep m B := by
  have e : ∀ c B, mixColumnStep n c B = mixColumnStep m c B :=
    fun c B => mixColumnStep_congr fun t h1 h2 x => h.1 t (.inl ⟨h1, h2⟩) x
  simp only [mixAllStep, e]

theorem decryptRoundsStep_congr {m n : Memory} (h : SameDecryptReads m n) :
    ∀ (r : Nat) (B : Block), r ≤ 10 → decryptRoundsStep n r B = decryptRoundsStep m r B := by
  have es : ∀ B, substituteStep n B = substituteStep m B := fun B => substituteStep_congr fun x => h.1 7 (.inr rfl) x
  have em : ∀ B, mixAllStep n B = mixAllStep m B := fun B => mixAllStep_congr h
  intro r
  induction r with
  | zero =>
    intro B hr
    have ek : ∀ B, addRoundKeyStep n 0 B = addRoundKeyStep m 0 B := fun B => addRoundKeyStep_congr hr h.2
    simp only [decryptRoundsStep, es, ek]
  | succ r ih =>
    intro B hr
    have ek : ∀ B, addRoundKeyStep n (r + 1) B = addRoundKeyStep m (r + 1) B := fun B => addRoundKeyStep_congr hr h.2
    have ei : ∀ B, decryptRoundsStep n r B = decryptRoundsStep m r B := fun B => ih B (by omega)
    simp only [decryptRoundsStep, es, ek, em, ei]

theorem decryptBlockStep_congr {m n : Memory} (h : SameDecryptReads m n) (B : Block) :
    decryptBlockStep n B = decryptBlockStep m B := by
  have ek : addRoundKeyStep n (rounds - 1) B = addRoundKeyStep m (rounds - 1) B :=
    addRoundKeyStep_congr (by decide) h.2
  have er : ∀ B, decryptRoundsStep n (rounds - 2) B = decryptRoundsStep m (rounds - 2) B :=
    fun B => decryptRoundsStep_congr h _ _ (by decide)
  simp only [decryptBlockStep, ek, er]

/-! ## What a checked computation can answer -/

/-- A value through `bind` comes from a value of the first part. -/
theorem bind_eq_ok {α β : Type} {x : Except Fault α} {f : α → Except Fault β} {b : β} (h : x >>= f = .ok b) :
    ∃ a, x = .ok a ∧ f a = .ok b := by
  cases x with
  | error e => simp [bind, Except.bind] at h
  | ok a => exact ⟨a, rfl, h⟩

/-- A fault through `bind` comes from the first part, or from the second after a value of the first. -/
theorem bind_eq_error {α β : Type} {x : Except Fault α} {f : α → Except Fault β} {e : Fault} (h : x >>= f = .error e) :
    x = .error e ∨ ∃ a, x = .ok a ∧ f a = .error e := by
  cases x with
  | error e' => simp only [bind, Except.bind, Except.error.injEq] at h; exact .inl (by rw [h])
  | ok a => exact .inr ⟨a, rfl, h⟩

/-- A computation that reads the offsets `reads` and computes `v` answers in one of two ways: all of them are written and
it answers `v`, or it stops with the fault of one that is unwritten. -/
def Answers {α : Type} (m : Memory) (reads : Nat → Prop) (v : α) (r : Except Fault α) : Prop :=
  ((∀ a, reads a → m.written a = true) ∧ r = .ok v) ∨
    ∃ a, reads a ∧ m.read a = none ∧ r = .error (unwrittenFault a)

theorem Answers.of_written {α : Type} {m : Memory} {R : Nat → Prop} {v : α} {r : Except Fault α} (h : Answers m R v r)
    (hw : ∀ a, R a → m.written a = true) : r = .ok v := by
  rcases h with h | ⟨a, ha, hn, _⟩
  · exact h.2
  · have := hw a ha
    simp [Memory.written, hn] at this

theorem Answers.of_unwritten {α : Type} {m : Memory} {R : Nat → Prop} {v : α} {r : Except Fault α} (h : Answers m R v r)
    (hn : ∃ a, R a ∧ m.read a = none) : ∃ a, R a ∧ m.read a = none ∧ r = .error (unwrittenFault a) := by
  rcases h with h | h
  · obtain ⟨a, ha, hn⟩ := hn
    have := h.1 a ha
    simp [Memory.written, hn] at this
  · exact h

theorem Answers.of_ok {α : Type} {m : Memory} {R : Nat → Prop} {v w : α} {r : Except Fault α} (h : Answers m R v r)
    (hr : r = .ok w) : (∀ a, R a → m.written a = true) ∧ w = v := by
  rcases h with ⟨h, rfl⟩ | ⟨_, _, _, rfl⟩
  · exact ⟨h, (Except.ok.inj hr).symm⟩
  · cases hr

theorem Answers.congr {α : Type} {m : Memory} {R R' : Nat → Prop} {v : α} {r : Except Fault α} (h : Answers m R v r)
    (e : ∀ a, R' a ↔ R a) : Answers m R' v r := by
  rwa [show R' = R from funext fun a => propext (e a)]

theorem Answers.congr_memory {α : Type} {m n : Memory} {R : Nat → Prop} {v : α} {r : Except Fault α} (h : Answers n R v r)
    (e : ∀ a, R a → n.read a = m.read a) : Answers m R v r := by
  rcases h with ⟨h, hr⟩ | ⟨a, ha, hn, hr⟩
  · exact .inl ⟨fun a ha => by rw [Memory.written, ← e a ha]; exact h a ha, hr⟩
  · exact .inr ⟨a, ha, (e a ha).symm.trans hn, hr⟩

/-- Two computations in a row read what either reads. -/
theorem Answers.bind {α β : Type} {m : Memory} {R R' : Nat → Prop} {v : α} {w : β} {x : Except Fault α}
    {f : α → Except Fault β} (hx : Answers m R v x) (hf : Answers m R' w (f v)) :
    Answers m (fun a => R a ∨ R' a) w (x >>= f) := by
  rcases hx with ⟨h, rfl⟩ | ⟨a, ha, hn, rfl⟩
  · rcases hf with ⟨h', e⟩ | ⟨a, ha, hn, e⟩
    · exact .inl ⟨fun a => Or.rec (h a) (h' a), e⟩
    · exact .inr ⟨a, .inr ha, hn, e⟩
  · exact .inr ⟨a, .inl ha, hn, rfl⟩

theorem checked_answers {α : Type} (m : Memory) {stop : Nat → Fault} {l : List Nat} (v : α) {R : Nat → Prop}
    (hR : ∀ a, R a ↔ a ∈ l) (hs : ∀ a ∈ l, stop a = unwrittenFault a) :
    Answers m R v (do requireWritten m stop l; return v) := by
  rcases requireWritten_cases m stop l with ⟨h, e⟩ | ⟨a, ha, hn, e⟩
  · exact .inl ⟨fun a ha => h a ((hR a).1 ha), by rw [e]; rfl⟩
  · exact .inr ⟨a, (hR a).2 ha, hn, by rw [e, ← hs a ha]; rfl⟩

theorem unwrittenFault_sbox {t : Nat} (x : Byte) (h : t ≤ 8) : Fault.unwrittenSbox (sboxOff t x) = unwrittenFault (sboxOff t x) := by
  have h1 := sboxOff_lt x h
  have h2 := sboxOff_ge t x
  simp only [offBuf, offSbox] at h1 h2
  rw [unwrittenFault, if_neg (by omega), if_pos h1]

theorem substituteStep_answers (m : Memory) (B : Block) :
    Answers m (SubstituteReads B) (substitute (m.sbox 7) B) (substituteStep m B) := by
  refine checked_answers m _ (fun a => ?_) fun a ha => ?_
  · simp only [List.mem_map, mem_block_toList]
    exact ⟨fun ⟨i, h⟩ => ⟨B[i], ⟨i, rfl⟩, h.symm⟩, by rintro ⟨_, ⟨i, rfl⟩, h⟩; exact ⟨i, h.symm⟩⟩
  · obtain ⟨x, _, rfl⟩ := List.mem_map.1 ha
    exact unwrittenFault_sbox x (by decide)

theorem mixColumnStep_answers (m : Memory) (c : Fin 4) (B : Block) :
    Answers m (MixColumnReads c B) (mixColumn m.sbox c B) (mixColumnStep m c B) := by
  refine checked_answers m _ (fun a => ?_) fun a ha => ?_
  · simp only [List.mem_map, mem_mixLookups]
    constructor
    · rintro ⟨i, hi, t, h1, h4, rfl⟩
      refine ⟨(t, B[i]), ⟨⟨i.val % 4, Nat.mod_lt _ (by decide)⟩, h1, h4, ?_⟩, rfl⟩
      have e : 4 * c.val + i.val % 4 = i.val := by omega
      simp [columnBytes, e]
    · rintro ⟨⟨t, x⟩, ⟨j, h1, h4, hx⟩, rfl⟩
      refine ⟨⟨4 * c.val + j.val, by omega⟩, show (4 * c.val + j.val) / 4 = c.val by omega, t, h1, h4, ?_⟩
      dsimp only at hx
      subst hx
      simp [columnBytes, sboxOff, offSbox]
  · obtain ⟨⟨t, x⟩, hl, rfl⟩ := List.mem_map.1 ha
    obtain ⟨_, _, h4, _⟩ := (mem_mixLookups c B _).1 hl
    exact unwrittenFault_sbox x (Nat.le_trans h4 (by decide))

/-- A mixed column leaves what the other columns read. -/
theorem mixColumnReads_mixColumn (S : Nat → Byte → Byte) {c d : Fin 4} (h : c ≠ d) (B : Block) (a : Nat) :
    MixColumnReads c (mixColumn S d B) a ↔ MixColumnReads c B a := by
  refine exists_congr fun i => and_congr_right fun hi => ?_
  rw [mixColumn_get, if_neg fun hd => h (Fin.ext (hi.symm.trans hd))]

theorem mixAllStep_answers (m : Memory) (B : Block) :
    Answers m (MixAllReads B) (mixAll m.sbox B) (mixAllStep m B) := by
  refine ((mixColumnStep_answers m 0 B).bind ((mixColumnStep_answers m 1 _).bind
    ((mixColumnStep_answers m 2 _).bind (mixColumnStep_answers m 3 _)))).congr fun a => ?_
  simp only [mixColumnReads_mixColumn, ne_eq, Fin.reduceEq, not_false_eq_true]
  constructor
  · rintro ⟨c, hc⟩
    obtain rfl | rfl | rfl | rfl : c = 0 ∨ c = 1 ∨ c = 2 ∨ c = 3 := by omega
    all_goals simp only [hc, true_or, or_true]
  · rintro (h | h | h | h) <;> exact ⟨_, h⟩

theorem addRoundKeyStep_answers (m : Memory) {r : Nat} (hr : r ≤ 10) (B : Block) :
    Answers m (RoundKeyReads r) (addRoundKey m.sched r B) (addRoundKeyStep m r B) := by
  refine checked_answers m _ (fun a => ?_) fun a ha => ?_
  · simp only [roundKeyOffsets, roundKeyOffset, blockBytes, schedOff, offSched, List.mem_map, List.mem_range]
    exact ⟨fun ⟨i, h⟩ => ⟨i.val, i.isLt, by omega⟩, fun ⟨i, hi, h⟩ => ⟨⟨i, hi⟩, by dsimp only; omega⟩⟩
  · simp only [roundKeyOffsets, roundKeyOffset, blockBytes, schedOff, offSched, List.mem_map, List.mem_range] at ha
    rw [unwrittenFault, if_pos (by omega)]

theorem memReadBlock_answers (m : Memory) (b : Nat) :
    Answers m (fun a => 0x1000 + b ≤ a ∧ a < 0x1000 + b + 16) (bufBlock m b) (memReadBlock m b) := by
  refine checked_answers m _ (fun a => ?_) fun a ha => ?_
  · simp only [bufBlockOffsets, blockBytes, bufOff, offBuf, List.mem_map, List.mem_range]
    exact ⟨fun h => ⟨a - (0x1000 + b), by omega, by omega⟩, fun ⟨i, hi, h⟩ => by omega⟩
  · simp only [bufBlockOffsets, blockBytes, bufOff, offBuf, List.mem_map, List.mem_range] at ha
    rw [unwrittenFault, if_neg (by omega), if_neg (by omega)]

/-! ## DecryptBlock -/

theorem decryptRoundsStep_answers (m : Memory) : ∀ (r : Nat) (B : Block), r ≤ 10 →
    Answers m (DecryptRoundsReads m.sbox m.sched r B) (decryptRounds m.sbox m.sched r B) (decryptRoundsStep m r B) := by
  intro r
  induction r with
  | zero => exact fun B hr => (substituteStep_answers m _).bind (addRoundKeyStep_answers m hr _)
  | succ r ih =>
    exact fun B hr => (substituteStep_answers m _).bind ((addRoundKeyStep_answers m hr _).bind
      ((mixAllStep_answers m _).bind (ih _ (by omega))))

/-- Everything DecryptBlock on the stores can answer: the pure DecryptBlock of what they hold, if every byte it reads is
written; else the fault of one that is not. -/
theorem decryptBlockStep_answers (m : Memory) (B : Block) :
    Answers m (DecryptReads m B) (decryptedBlock m B) (decryptBlockStep m B) :=
  (addRoundKeyStep_answers m (by decide) B).bind (decryptRoundsStep_answers m _ _ (by decide))

/-- Whenever DecryptBlock on the stores answers, it answers the pure DecryptBlock of what they hold. -/
theorem decryptBlockStep_eq_ok {m : Memory} {B C : Block} (h : decryptBlockStep m B = .ok C) :
    C = decryptedBlock m B := ((decryptBlockStep_answers m B).of_ok h).2

theorem roundKeyReads_written {m : Memory} (h : SchedLoaded m) {r a : Nat} (hr : r ≤ 10) (ha : RoundKeyReads r a) :
    m.written a = true := by
  obtain ⟨i, rfl⟩ := ha
  rw [Nat.add_assoc]
  exact h (16 * r + i.val) (by simp only [schedBytes]; omega)

/-- With a loaded schedule AddRoundKey on the stores is the pure AddRoundKey. -/
theorem addRoundKeyStep_of_loaded {m : Memory} (h : SchedLoaded m) {r : Nat} (hr : r ≤ 10) (B : Block) :
    addRoundKeyStep m r B = .ok (addRoundKey m.sched r B) :=
  (addRoundKeyStep_answers m hr B).of_written fun _ => roundKeyReads_written h hr

theorem decryptRoundsReads_written {m : Memory} (h : DecryptLoaded m) : ∀ (r : Nat) (B : Block) (a : Nat), r ≤ 10 →
    DecryptRoundsReads m.sbox m.sched r B a → m.written a = true := by
  obtain ⟨l1, l2, l3, l4, l7, ls⟩ := h
  have hs : ∀ B a, SubstituteReads B a → m.written a = true := by
    rintro B a ⟨i, rfl⟩
    exact l7 _
  have hm : ∀ B a, MixAllReads B a → m.written a = true := by
    rintro B a ⟨_, i, -, t, h1, h4, rfl⟩
    obtain rfl | rfl | rfl | rfl : t = 1 ∨ t = 2 ∨ t = 3 ∨ t = 4 := by omega
    exacts [l1 _, l2 _, l3 _, l4 _]
  intro r
  induction r with
  | zero => exact fun B a hr => Or.rec (hs _ _) (roundKeyReads_written ls hr)
  | succ r ih =>
    exact fun B a hr => Or.rec (hs _ _) (Or.rec (roundKeyReads_written ls hr) (Or.rec (hm _ _) (ih _ _ (by omega))))

/-- Loaded tables and a loaded schedule hold everything a decryption reads. -/
theorem DecryptLoaded.reads_written {m : Memory} (h : DecryptLoaded m) {B : Block} {a : Nat} (ha : DecryptReads m B a) :
    m.written a = true :=
  Or.rec (roundKeyReads_written h.2.2.2.2.2 (by decide)) (decryptRoundsReads_written h _ _ _ (by decide)) ha

/-- With loaded tables and schedule, DecryptBlock on the stores is the pure DecryptBlock of what they hold. -/
theorem decryptBlockStep_of_loaded {m : Memory} (h : DecryptLoaded m) (B : Block) :
    decryptBlockStep m B = .ok (decryptedBlock m B) :=
  (decryptBlockStep_answers m B).of_written fun _ => h.reads_written

/-! ## DBUF's loop -/

/-- Writing a block of BUF leaves what a decryption reads. -/
theorem sameDecryptReads_memWriteBlock (m : Memory) (a : Nat) (B : Block) :
    SameDecryptReads m (memWriteBlock m a B) := by
  refine ⟨fun t ht x => read_memWriteBlock_outside _ _ _ _ (.inl ?_),
    fun k hk => read_memWriteBlock_outside _ _ _ _ (.inl ?_)⟩
  · have := sboxOff_lt (t := t) x (by omega)
    simp only [bufOff]
    omega
  · simp only [schedOff, offSched, schedBytes, bufOff, offBuf] at *
    omega

/-- Writing a block of BUF leaves the blocks after it. -/
theorem bufBlock_memWriteBlock {m : Memory} {k j : Nat} (h : k < j) (C : Block) :
    bufBlock (memWriteBlock m (16 * k) C) (16 * j) = bufBlock m (16 * j) := by
  unfold bufBlock
  congr 1
  funext i
  simp only [Memory.buf]
  rw [read_memWriteBlock_outside]
  right
  simp only [bufOff]
  omega

/-- Everything DBUF's loop can answer with a value: each of its blocks is decrypted from what it held before, and every
byte outside them keeps. -/
theorem decryptBlocksStep_eq_ok : ∀ (count k : Nat) (m n : Memory), decryptBlocksStep count k m = .ok n →
    (∀ j, k ≤ j → j < k + count → decryptBlockStep m (bufBlock m (16 * j)) = .ok (decryptedBlock m (bufBlock m (16 * j))) ∧
      ∀ i : Fin 16, n.read (bufOff (16 * j + i.val)) = some (decryptedBlock m (bufBlock m (16 * j)))[i]) ∧
    (∀ a, ¬ (bufOff (16 * k) ≤ a ∧ a < bufOff (16 * (k + count))) → n.read a = m.read a) ∧
    (m.wf = true → n.wf = true) := by
  intro count
  induction count with
  | zero =>
    intro k m n h
    simp only [decryptBlocksStep, Except.ok.injEq] at h
    subst h
    exact ⟨fun j h1 h2 => by omega, fun _ _ => rfl, id⟩
  | succ count ih =>
    intro k m n h
    obtain ⟨B, hB, hrest⟩ := bind_eq_ok h
    obtain ⟨C, hC, hloop⟩ := bind_eq_ok hrest
    obtain ⟨-, rfl⟩ := (memReadBlock_eq_ok _ _ _).1 hB
    have eC := decryptBlockStep_eq_ok hC
    obtain ⟨h1, h2, h3⟩ := ih _ _ _ hloop
    have hs := sameDecryptReads_memWriteBlock m (16 * k) C
    have ed : ∀ B, decryptBlockStep (memWriteBlock m (16 * k) C) B = decryptBlockStep m B := decryptBlockStep_congr hs
    refine ⟨fun j hj1 hj2 => ?_, fun a ha => ?_, fun hw => h3 (Memory.wf_memWriteBlock _ _ _ hw)⟩
    · by_cases hjk : j = k
      · subst hjk
        refine ⟨by rw [← eC]; exact hC, fun i => ?_⟩
        rw [h2 _ (by simp only [bufOff]; omega), read_memWriteBlock_inside, eC]
      · obtain ⟨g1, g2⟩ := h1 j (by omega) (by omega)
        have eb := bufBlock_memWriteBlock (m := m) (show k < j by omega) C
        rw [eb, ed] at g1
        have e := decryptBlockStep_eq_ok g1
        rw [eb, e] at g2
        exact ⟨by rw [g1, ← e], g2⟩
    · rw [h2 _ (by simp only [bufOff] at *; omega), read_memWriteBlock_outside _ _ _ _ (by simp only [bufOff] at *; omega)]

/-- The loop's reads depend on the tables 1 to 4 and 7 and on the schedule only. -/
theorem decryptRoundsReads_congr {m n : Memory} (h : SameDecryptReads m n) (a : Nat) : ∀ (r : Nat) (B : Block), r ≤ 10 →
    (DecryptRoundsReads n.sbox n.sched r B a ↔ DecryptRoundsReads m.sbox m.sched r B a) := by
  have e7 : n.sbox 7 = m.sbox 7 := funext fun x => Memory.sbox_congr (h.1 7 (.inr rfl) x)
  have ek : ∀ {r : Nat} B, r ≤ 10 → addRoundKey n.sched r B = addRoundKey m.sched r B :=
    fun B hr => addRoundKey_congr hr h.2
  have em : ∀ B, mixAll n.sbox B = mixAll m.sbox B := fun B => by
    simp only [mixAll, mixColumn_congr (S := m.sbox) (T := n.sbox) fun t h1 h4 x => Memory.sbox_congr (h.1 t (.inl ⟨h1, h4⟩) x)]
  intro r
  induction r with
  | zero => exact fun B _ => Iff.rfl
  | succ r ih => exact fun B hr => by simp only [DecryptRoundsReads, e7, ek _ hr, em, ih _ (Nat.le_of_succ_le hr)]

theorem decryptReads_congr {m n : Memory} (h : SameDecryptReads m n) (B : Block) (a : Nat) :
    DecryptReads n B a ↔ DecryptReads m B a := by
  simp only [DecryptReads, addRoundKey_congr (show 10 ≤ 10 by decide) h.2, decryptRoundsReads_congr h a _ _ (show 9 ≤ 10 by decide)]

/-- A decryption reads below BUF only. -/
theorem decryptReads_lt {m : Memory} {B : Block} {a : Nat} (h : DecryptReads m B a) : a < 0x1000 := by
  have hs : ∀ B, SubstituteReads B a → a < 0x1000 := fun B ⟨i, e⟩ => by have := B[i].isLt; omega
  have hk : ∀ r, r ≤ 10 → RoundKeyReads r a → a < 0x1000 := fun r hr ⟨i, e⟩ => by omega
  have hm : ∀ B, MixAllReads B a → a < 0x1000 := fun B ⟨_, i, _, t, _, _, e⟩ => by have := B[i].isLt; omega
  have loop : ∀ (r : Nat) (B : Block), r ≤ 10 → DecryptRoundsReads m.sbox m.sched r B a → a < 0x1000 := by
    intro r
    induction r with
    | zero => exact fun B hr => Or.rec (hs _) (hk _ hr)
    | succ r ih => exact fun B hr => Or.rec (hs _) (Or.rec (hk _ hr) (Or.rec (hm _) (ih _ (by omega))))
  exact Or.rec (hk _ (by decide)) (loop _ _ (by decide)) h

/-- Decrypting a block of BUF in place leaves the blocks after it and what a decryption reads, so it leaves what their
decryptions read. -/
theorem bufBlockReads_memWriteBlock {m : Memory} {k j : Nat} (h : k < j) (C : Block) (a : Nat) :
    (BufBlockReads (memWriteBlock m (16 * k) C) (16 * j) a ↔ BufBlockReads m (16 * j) a) ∧
      (BufBlockReads m (16 * j) a → (memWriteBlock m (16 * k) C).read a = m.read a) := by
  constructor
  · rw [BufBlockReads, BufBlockReads, bufBlock_memWriteBlock h, decryptReads_congr (sameDecryptReads_memWriteBlock _ _ _)]
  · intro ha
    apply read_memWriteBlock_outside
    simp only [bufOff, offBuf]
    rcases ha with ha | ha
    · omega
    · have := decryptReads_lt ha
      omega

/-- Everything DBUF's loop can answer: a value, if every byte of its blocks is written and every byte that their
decryptions read is; else the fault of one that is not. -/
theorem decryptBlocksStep_answers : ∀ (count k : Nat) (m : Memory), ∃ n,
    Answers m (fun a => ∃ j, k ≤ j ∧ j < k + count ∧ BufBlockReads m (16 * j) a) n (decryptBlocksStep count k m) := by
  intro count
  induction count with
  | zero => exact fun k m => ⟨m, .inl ⟨fun a ⟨j, h1, h2, _⟩ => by omega, rfl⟩⟩
  | succ count ih =>
    intro k m
    obtain ⟨n, hn⟩ := ih (k + 1) (memWriteBlock m (16 * k) (decryptedBlock m (bufBlock m (16 * k))))
    have hn := hn.congr_memory (m := m) fun a ⟨j, h1, _, hj⟩ =>
      have e := bufBlockReads_memWriteBlock (show k < j from h1) _ a
      e.2 (e.1.1 hj)
    have h : Answers m _ n (memReadBlock m (16 * k) >>= fun B => decryptBlockStep m B >>= fun C =>
        decryptBlocksStep count (k + 1) (memWriteBlock m (16 * k) C)) :=
      (memReadBlock_answers m (16 * k)).bind ((decryptBlockStep_answers m _).bind hn)
    refine ⟨n, h.congr fun a => ?_⟩
    rw [← or_assoc]
    constructor
    · rintro ⟨j, h1, h2, hj⟩
      by_cases hjk : j = k
      · subst hjk
        exact .inl hj
      · exact .inr ⟨j, by omega, by omega, (bufBlockReads_memWriteBlock (by omega) _ a).1.2 hj⟩
    · rintro (hj | ⟨j, h1, h2, hj⟩)
      · exact ⟨k, Nat.le_refl k, by omega, hj⟩
      · exact ⟨j, by omega, by omega, (bufBlockReads_memWriteBlock (by omega) _ a).1.1 hj⟩

/-- DBUF's loop answers whenever the tables, the schedule and its blocks are loaded. -/
theorem decryptBlocksStep_of_loaded (count k : Nat) (m : Memory) (hd : DecryptLoaded m)
    (hb : BufLoaded m (16 * k) (16 * count)) : ∃ n, decryptBlocksStep count k m = .ok n := by
  obtain ⟨n, hn⟩ := decryptBlocksStep_answers count k m
  refine ⟨n, hn.of_written fun a => ?_⟩
  rintro ⟨j, h1, h2, ha | ha⟩
  · have := hb (a - 0x1000 - 16 * k) (by omega)
    rwa [show bufOff (16 * k + (a - 0x1000 - 16 * k)) = a by simp only [bufOff, offBuf]; omega] at this
  · exact hd.reads_written ha

/-! ## The commands: everything each can answer -/

theorem finishBlk_next {s t : State} {r : Except Fault Block} (h : finishBlk s r = .next t) :
    ∃ B, r = .ok B ∧ t = (s.setBlk B).succeed := by
  cases r with
  | error f => simp [finishBlk] at h
  | ok B => simp only [finishBlk, Host.Outcome.next.injEq] at h; exact ⟨B, rfl, h.symm⟩

theorem execInit_next {s t : State} (h : execInit s = .next t) :
    (∀ a ∈ initLookups s, s.mem.written a = true) ∧
      t = ((s.setMem (s.mem.writeBytes offSched (initSchedule s).toList)).scheduleValid).succeed := by
  unfold execInit at h
  rcases requireWritten_cases s.mem .unwrittenSbox (initLookups s) with ⟨hw, e⟩ | ⟨a, _, _, e⟩
  · rw [e] at h
    simp only [Host.Outcome.next.injEq] at h
    exact ⟨hw, h.symm⟩
  · rw [e] at h
    simp at h

theorem execInit_of_written {s : State} (h : ∀ a ∈ initLookups s, s.mem.written a = true) :
    execInit s = .next ((s.setMem (s.mem.writeBytes offSched (initSchedule s).toList)).scheduleValid).succeed := by
  unfold execInit
  rw [(requireWritten_eq_ok _ _ _).2 h]

theorem legalRoundKey_iff (r : BitVec 4) : legalRoundKey r = true ↔ r.toNat ≤ 10 := by
  unfold legalRoundKey rounds
  rw [decide_eq_true_eq]
  omega

theorem execAddrk_next {s t : State} {r : BitVec 4} (h : execAddrk r s = .next t) :
    (10 < r.toNat ∧ t = s.raise .illegalCommand) ∨
    (r.toNat ≤ 10 ∧ s.ready = false ∧ t = s.raise .notInitialized) ∨
    (r.toNat ≤ 10 ∧ s.ready = true ∧ ∃ B, addRoundKeyStep s.mem r.toNat s.blk = .ok B ∧ t = (s.setBlk B).succeed) := by
  unfold execAddrk at h
  split at h
  · rename_i hr
    simp only [Host.Outcome.next.injEq] at h
    exact .inl ⟨Nat.lt_of_not_le fun hle => by simp [(legalRoundKey_iff r).2 hle] at hr, h.symm⟩
  · rename_i hr
    have hr : r.toNat ≤ 10 := (legalRoundKey_iff r).1 (by simpa using hr)
    split at h
    · rename_i hs
      simp only [Host.Outcome.next.injEq] at h
      exact .inr (.inl ⟨hr, hs, h.symm⟩)
    · rename_i hs
      exact .inr (.inr ⟨hr, by simpa using hs, finishBlk_next h⟩)

theorem execDblk_next {s t : State} (h : execDblk s = .next t) :
    (s.ready = false ∧ t = s.raise .notInitialized) ∨
    (s.ready = true ∧ ∃ B, decryptBlockStep s.mem s.blk = .ok B ∧ t = (s.setBlk B).succeed) := by
  unfold execDblk at h
  split at h
  · rename_i hs
    simp only [Host.Outcome.next.injEq] at h
    exact .inl ⟨hs, h.symm⟩
  · rename_i hs
    exact .inr ⟨by simpa using hs, finishBlk_next h⟩

theorem badLength_iff (s : State) :
    badLength s = true ↔ s.len.toNat = 0 ∨ s.len.toNat % 16 ≠ 0 ∨ s.len.toNat > s.bufBytes := by
  simp [badLength, or_assoc]

theorem badPadding_iff {n L : Nat} (h : 16 ≤ L) : badPadding n L = true ↔ n < 1 ∨ 16 < n := by
  simp only [badPadding, Bool.or_eq_true, decide_eq_true_eq]
  omega

/-- Everything the padding pre-check's scratch block can be: the decryption of the last block, or a fault. -/
theorem lastBlockStep_answers (s : State) :
    Answers s.mem (BufBlockReads s.mem (s.len.toNat - 16)) (decryptedBlock s.mem (bufBlock s.mem (s.len.toNat - 16)))
      (lastBlockStep s) :=
  (memReadBlock_answers _ _).bind (decryptBlockStep_answers _ _)

theorem lastBlockStep_of_loaded {s : State} (hd : DecryptLoaded s.mem) (hb : BufLoaded s.mem (s.len.toNat - 16) 16) :
    lastBlockStep s = .ok (decryptedBlock s.mem (bufBlock s.mem (s.len.toNat - 16))) := by
  refine (lastBlockStep_answers s).of_written fun a => Or.rec (fun ha => ?_) fun ha => hd.reads_written ha
  have := hb (a - 0x1000 - (s.len.toNat - 16)) (by omega)
  rwa [show bufOff (s.len.toNat - 16 + (a - 0x1000 - (s.len.toNat - 16))) = a by simp only [bufOff, offBuf]; omega] at this

/-- Everything DBUF can answer (42_engine_commands.md R112, in the order of 60_exceptions.md R124). -/
theorem execDbuf_next {s t : State} (h : execDbuf s = .next t) :
    (badLength s = true ∧ t = s.raiseDbuf .invalidBlockLength) ∨
    (badLength s = false ∧ s.ready = false ∧ t = s.raiseDbuf .notInitialized) ∨
    (badLength s = false ∧ s.ready = true ∧ badPadding (padLength s) s.len.toNat = true ∧
      t = s.raiseDbuf .invalidPadding) ∨
    (badLength s = false ∧ s.ready = true ∧ badPadding (padLength s) s.len.toNat = false ∧
      ∃ m, decryptBlocksStep (s.len.toNat / 16) 0 s.mem = .ok m ∧
        t = ((s.setMem m).setOutLen (BitVec.ofNat 32 (s.len.toNat - padLength s))).succeed) := by
  unfold execDbuf at h
  split at h
  · rename_i hl
    simp only [Host.Outcome.next.injEq] at h
    exact .inl ⟨hl, h.symm⟩
  · rename_i hl
    have hl : badLength s = false := by simpa using hl
    split at h
    · rename_i hs
      simp only [Host.Outcome.next.injEq] at h
      exact .inr (.inl ⟨hl, hs, h.symm⟩)
    · rename_i hs
      have hs : s.ready = true := by simpa using hs
      unfold dbufDecrypt at h
      cases hb : lastBlockStep s with
      | error f => rw [hb] at h; simp at h
      | ok B =>
        have e : B[15].toNat = padLength s := by rw [((lastBlockStep_answers s).of_ok hb).2]; rfl
        rw [hb] at h
        dsimp only at h
        rw [e] at h
        split at h
        · rename_i hp
          simp only [Host.Outcome.next.injEq] at h
          exact .inr (.inr (.inl ⟨hl, hs, hp, h.symm⟩))
        · rename_i hp
          cases hm : decryptBlocksStep (s.len.toNat / 16) 0 s.mem with
          | error f => rw [hm] at h; simp at h
          | ok m =>
            rw [hm] at h
            simp only [Host.Outcome.next.injEq] at h
            exact .inr (.inr (.inr ⟨hl, hs, by simpa using hp, m, rfl, h.symm⟩))

end Sys2Proof.Machine
end

