-- ==== Sys2Proof/Laws/PerInstr.lean ====
section
/-! SUPPORT. Statements made once per command: one lemma per constructor of `Instr`. -/

namespace Sys2Proof.Laws

/-- The word of a well-formed command is one of the 20 legal words of 30_encoding.md R72. -/
def Legal.Statement (i : Instr) : Prop := i.wellFormed = true → encode i ∈ legalWords

theorem Legal.init : Legal.Statement .init := fun _ => by decide

theorem Legal.dblk : Legal.Statement .dblk := fun _ => by decide

theorem Legal.dbuf : Legal.Statement .dbuf := fun _ => by decide

theorem Legal.perm : Legal.Statement .perm := fun _ => by decide

theorem Legal.subst : Legal.Statement .subst := fun _ => by decide

theorem Legal.mixcol : ∀ c, Legal.Statement (.mixcol c) := by unfold Legal.Statement; decide

theorem Legal.addrk : ∀ r, Legal.Statement (.addrk r) := by unfold Legal.Statement; decide

end Sys2Proof.Laws
end

