-- ==== Sys2Proof/Laws/Window.lean ====
section
/-! SUPPORT. The host window: everything a host access, and so a step, can answer. -/

namespace Sys2Proof.Machine

/-- An accepted access is 32 bits wide and aligned (20_memory.md R49, R50). -/
theorem accessFault_eq_none {bits : Nat} {off : Word} : accessFault bits off = none ↔ bits = 32 ∧ off.toNat % 4 = 0 := by
  unfold accessFault
  by_cases h : bits = 32
  · by_cases h2 : off.toNat % 4 = 0 <;> simp [h, h2]
  · simp [h]

@[simp] theorem inKey_iff (a : Nat) : inKey a = true ↔ 0x010 ≤ a ∧ a ≤ 0x01C := by
  unfold inKey
  rw [Bool.and_eq_true, decide_eq_true_eq, decide_eq_true_eq]
  exact Iff.rfl

@[simp] theorem inMixv_iff (a : Nat) : inMixv a = true ↔ 0x020 ≤ a ∧ a ≤ 0x028 := by
  unfold inMixv
  rw [Bool.and_eq_true, decide_eq_true_eq, decide_eq_true_eq]
  exact Iff.rfl

@[simp] theorem inBlk_iff (a : Nat) : inBlk a = true ↔ 0x030 ≤ a ∧ a ≤ 0x03C := by
  unfold inBlk
  rw [Bool.and_eq_true, decide_eq_true_eq, decide_eq_true_eq]
  exact Iff.rfl

@[simp] theorem inSched_iff (a : Nat) : inSched a = true ↔ 0x100 ≤ a ∧ a ≤ 0x1AC := by
  unfold inSched
  rw [Bool.and_eq_true, decide_eq_true_eq, decide_eq_true_eq]
  exact Iff.rfl

@[simp] theorem inSbox_iff (a : Nat) : inSbox a = true ↔ 0x800 ≤ a ∧ a ≤ 0xFFC := by
  unfold inSbox
  rw [Bool.and_eq_true, decide_eq_true_eq, decide_eq_true_eq]
  exact Iff.rfl

@[simp] theorem inBuf_iff (s : State) (a : Nat) : inBuf s a = true ↔ 0x1000 ≤ a ∧ a < 0x1000 + s.bufBytes := by
  unfold inBuf
  rw [Bool.and_eq_true, decide_eq_true_eq, decide_eq_true_eq]
  exact Iff.rfl

/-! ## Host reads and writes, region by region -/

@[simp] theorem hostRead_cmd (s : State) : hostRead s 0x000 = 0#32 := rfl

@[simp] theorem hostRead_status (s : State) : hostRead s 0x004 = statusWord s := rfl

@[simp] theorem hostRead_len (s : State) : hostRead s 0x008 = s.len := rfl

@[simp] theorem hostRead_outLen (s : State) : hostRead s 0x00C = s.outLen := rfl

theorem hostRead_key {s : State} {a : Nat} (h : 0x010 ≤ a ∧ a ≤ 0x01C) : hostRead s a = storeWord s.key (a - 0x010) := by
  unfold hostRead
  rw [
    if_neg (show a ≠ offCmd by simp only [offCmd]; omega),
    if_neg (show a ≠ offStatus by simp only [offStatus]; omega),
    if_neg (show a ≠ offLen by simp only [offLen]; omega),
    if_neg (show a ≠ offOutLen by simp only [offOutLen]; omega), if_pos (by rw [inKey_iff]; omega)]
  rfl

theorem hostRead_mixv {s : State} {a : Nat} (h : 0x020 ≤ a ∧ a ≤ 0x028) : hostRead s a = storeWord s.mixv (a - 0x020) := by
  unfold hostRead
  rw [
    if_neg (show a ≠ offCmd by simp only [offCmd]; omega),
    if_neg (show a ≠ offStatus by simp only [offStatus]; omega),
    if_neg (show a ≠ offLen by simp only [offLen]; omega),
    if_neg (show a ≠ offOutLen by simp only [offOutLen]; omega), if_neg (by rw [inKey_iff]; omega),
    if_pos (by rw [inMixv_iff]; omega)]
  rfl

theorem hostRead_blk {s : State} {a : Nat} (h : 0x030 ≤ a ∧ a ≤ 0x03C) : hostRead s a = storeWord s.blk (a - 0x030) := by
  unfold hostRead
  rw [
    if_neg (show a ≠ offCmd by simp only [offCmd]; omega),
    if_neg (show a ≠ offStatus by simp only [offStatus]; omega),
    if_neg (show a ≠ offLen by simp only [offLen]; omega),
    if_neg (show a ≠ offOutLen by simp only [offOutLen]; omega), if_neg (by rw [inKey_iff]; omega),
    if_neg (by rw [inMixv_iff]; omega), if_pos (by rw [inBlk_iff]; omega)]
  rfl

theorem hostRead_sched {s : State} {a : Nat} (h : 0x100 ≤ a ∧ a ≤ 0x1AC) : hostRead s a = hostStoreWord s a := by
  unfold hostRead
  rw [
    if_neg (show a ≠ offCmd by simp only [offCmd]; omega),
    if_neg (show a ≠ offStatus by simp only [offStatus]; omega),
    if_neg (show a ≠ offLen by simp only [offLen]; omega),
    if_neg (show a ≠ offOutLen by simp only [offOutLen]; omega), if_neg (by rw [inKey_iff]; omega),
    if_neg (by rw [inMixv_iff]; omega), if_neg (by rw [inBlk_iff]; omega), if_pos (by rw [inSched_iff]; omega)]

theorem hostRead_sbox {s : State} {a : Nat} (h : 0x800 ≤ a ∧ a ≤ 0xFFC) : hostRead s a = hostStoreWord s a := by
  unfold hostRead
  rw [
    if_neg (show a ≠ offCmd by simp only [offCmd]; omega),
    if_neg (show a ≠ offStatus by simp only [offStatus]; omega),
    if_neg (show a ≠ offLen by simp only [offLen]; omega),
    if_neg (show a ≠ offOutLen by simp only [offOutLen]; omega), if_neg (by rw [inKey_iff]; omega),
    if_neg (by rw [inMixv_iff]; omega), if_neg (by rw [inBlk_iff]; omega), if_neg (by rw [inSched_iff]; omega),
    if_pos (by rw [inSbox_iff]; omega)]

theorem hostRead_buf {s : State} {a : Nat} (h : 0x1000 ≤ a ∧ a < 0x1000 + s.bufBytes) : hostRead s a = hostStoreWord s a := by
  unfold hostRead
  rw [
    if_neg (show a ≠ offCmd by simp only [offCmd]; omega),
    if_neg (show a ≠ offStatus by simp only [offStatus]; omega),
    if_neg (show a ≠ offLen by simp only [offLen]; omega),
    if_neg (show a ≠ offOutLen by simp only [offOutLen]; omega), if_neg (by rw [inKey_iff]; omega),
    if_neg (by rw [inMixv_iff]; omega), if_neg (by rw [inBlk_iff]; omega), if_neg (by rw [inSched_iff]; omega),
    if_neg (by rw [inSbox_iff]; omega), if_pos (by rw [inBuf_iff]; omega)]

/-- Reserved offsets read 0 (R48). The conditions are those of R44's map at a word-aligned offset. -/
theorem hostRead_reserved {s : State} {a : Nat}
    (h : a = 0x02C ∨ (0x040 ≤ a ∧ a < 0x100) ∨ (0x1B0 ≤ a ∧ a < 0x800) ∨ (0x1000 ≤ a ∧ 0x1000 + s.bufBytes ≤ a)) :
    hostRead s a = 0#32 := by
  unfold hostRead
  rw [
    if_neg (show a ≠ offCmd by simp only [offCmd]; omega),
    if_neg (show a ≠ offStatus by simp only [offStatus]; omega),
    if_neg (show a ≠ offLen by simp only [offLen]; omega),
    if_neg (show a ≠ offOutLen by simp only [offOutLen]; omega), if_neg (by rw [inKey_iff]; omega),
    if_neg (by rw [inMixv_iff]; omega), if_neg (by rw [inBlk_iff]; omega), if_neg (by rw [inSched_iff]; omega),
    if_neg (by rw [inSbox_iff]; omega), if_neg (by rw [inBuf_iff]; omega)]

@[simp] theorem hostWrite_cmd (s : State) (v : Word) : hostWrite s 0x000 v = executeCommand v s := rfl

@[simp] theorem hostWrite_len (s : State) (v : Word) : hostWrite s 0x008 v = .next (s.setLen v) := rfl

theorem hostWrite_key {s : State} {a : Nat} (v : Word) (h : 0x010 ≤ a ∧ a ≤ 0x01C) :
    hostWrite s a v = .next (s.setKey (setStoreWord s.key (a - 0x010) v)).configWritten := by
  unfold hostWrite
  rw [
    if_neg (show a ≠ offCmd by simp only [offCmd]; omega), if_neg (show a ≠ offLen by simp only [offLen]; omega),
    if_pos (by rw [inKey_iff]; omega)]
  rfl

theorem hostWrite_mixv {s : State} {a : Nat} (v : Word) (h : 0x020 ≤ a ∧ a ≤ 0x028) :
    hostWrite s a v = .next (s.setMixv (setStoreWord s.mixv (a - 0x020) v)).configWritten := by
  unfold hostWrite
  rw [
    if_neg (show a ≠ offCmd by simp only [offCmd]; omega), if_neg (show a ≠ offLen by simp only [offLen]; omega),
    if_neg (by rw [inKey_iff]; omega), if_pos (by rw [inMixv_iff]; omega)]
  rfl

theorem hostWrite_blk {s : State} {a : Nat} (v : Word) (h : 0x030 ≤ a ∧ a ≤ 0x03C) :
    hostWrite s a v = .next (s.setBlk (setStoreWord s.blk (a - 0x030) v)) := by
  unfold hostWrite
  rw [
    if_neg (show a ≠ offCmd by simp only [offCmd]; omega), if_neg (show a ≠ offLen by simp only [offLen]; omega),
    if_neg (by rw [inKey_iff]; omega), if_neg (by rw [inMixv_iff]; omega), if_pos (by rw [inBlk_iff]; omega)]
  rfl

theorem hostWrite_sbox {s : State} {a : Nat} (v : Word) (h : 0x800 ≤ a ∧ a ≤ 0xFFC) :
    hostWrite s a v = .next (s.setMem (s.mem.writeBytes a (bytesOf v).toList)).configWritten := by
  unfold hostWrite
  rw [
    if_neg (show a ≠ offCmd by simp only [offCmd]; omega), if_neg (show a ≠ offLen by simp only [offLen]; omega),
    if_neg (by rw [inKey_iff]; omega), if_neg (by rw [inMixv_iff]; omega), if_neg (by rw [inBlk_iff]; omega),
    if_pos (by rw [inSbox_iff]; omega)]

theorem hostWrite_buf {s : State} {a : Nat} (v : Word) (h : 0x1000 ≤ a ∧ a < 0x1000 + s.bufBytes) :
    hostWrite s a v = .next (s.setMem (s.mem.writeBytes a (bytesOf v).toList)) := by
  unfold hostWrite
  rw [
    if_neg (show a ≠ offCmd by simp only [offCmd]; omega), if_neg (show a ≠ offLen by simp only [offLen]; omega),
    if_neg (by rw [inKey_iff]; omega), if_neg (by rw [inMixv_iff]; omega), if_neg (by rw [inBlk_iff]; omega),
    if_neg (by rw [inSbox_iff]; omega), if_pos (by rw [inBuf_iff]; omega)]

/-- STATUS, OUT_LEN, SCHED and reserved offsets ignore writes (R52). -/
theorem hostWrite_ignored {s : State} {a : Nat} (v : Word)
    (h : a = 0x004 ∨ a = 0x00C ∨ a = 0x02C ∨ (0x040 ≤ a ∧ a < 0x800) ∨ (0x1000 ≤ a ∧ 0x1000 + s.bufBytes ≤ a)) :
    hostWrite s a v = .next s := by
  unfold hostWrite
  rw [
    if_neg (show a ≠ offCmd by simp only [offCmd]; omega), if_neg (show a ≠ offLen by simp only [offLen]; omega),
    if_neg (by rw [inKey_iff]; omega), if_neg (by rw [inMixv_iff]; omega), if_neg (by rw [inBlk_iff]; omega),
    if_neg (by rw [inSbox_iff]; omega), if_neg (by rw [inBuf_iff]; omega)]

/-- Everything a host write can answer, region by region (R52). -/
theorem hostWrite_next {s t : State} {a : Nat} {v : Word} (h : hostWrite s a v = .next t) :
    (a = 0 ∧ executeCommand v s = .next t) ∨
    (a = 8 ∧ t = s.setLen v) ∨
    (0x010 ≤ a ∧ a ≤ 0x01C ∧ t = (s.setKey (setStoreWord s.key (a - 0x010) v)).configWritten) ∨
    (0x020 ≤ a ∧ a ≤ 0x028 ∧ t = (s.setMixv (setStoreWord s.mixv (a - 0x020) v)).configWritten) ∨
    (0x030 ≤ a ∧ a ≤ 0x03C ∧ t = s.setBlk (setStoreWord s.blk (a - 0x030) v)) ∨
    (0x800 ≤ a ∧ a ≤ 0xFFC ∧ t = (s.setMem (s.mem.writeBytes a (bytesOf v).toList)).configWritten) ∨
    (0x1000 ≤ a ∧ a < 0x1000 + s.bufBytes ∧ t = s.setMem (s.mem.writeBytes a (bytesOf v).toList)) ∨
    (a ≠ 0 ∧ a ≠ 8 ∧ ¬ (0x010 ≤ a ∧ a ≤ 0x01C) ∧ ¬ (0x020 ≤ a ∧ a ≤ 0x028) ∧ ¬ (0x800 ≤ a ∧ a ≤ 0xFFC) ∧ t = s) := by
  simp only [hostWrite, offCmd, offLen, offKey, offMixv, offBlk, inKey_iff, inMixv_iff, inBlk_iff, inSbox_iff,
    inBuf_iff] at h
  split at h
  · rename_i h0; exact .inl ⟨h0, h⟩
  split at h
  · rename_i h1; simp only [Host.Outcome.next.injEq] at h; exact .inr (.inl ⟨h1, h.symm⟩)
  split at h
  · rename_i h2; simp only [Host.Outcome.next.injEq] at h; exact .inr (.inr (.inl ⟨h2.1, h2.2, h.symm⟩))
  split at h
  · rename_i h3; simp only [Host.Outcome.next.injEq] at h; exact .inr (.inr (.inr (.inl ⟨h3.1, h3.2, h.symm⟩)))
  split at h
  · rename_i h4; simp only [Host.Outcome.next.injEq] at h
    exact .inr (.inr (.inr (.inr (.inl ⟨h4.1, h4.2, h.symm⟩))))
  split at h
  · rename_i h5; simp only [Host.Outcome.next.injEq] at h
    exact .inr (.inr (.inr (.inr (.inr (.inl ⟨h5.1, h5.2, h.symm⟩)))))
  split at h
  · rename_i h6; simp only [Host.Outcome.next.injEq] at h
    exact .inr (.inr (.inr (.inr (.inr (.inr (.inl ⟨h6.1, h6.2, h.symm⟩))))))
  · rename_i h0 h1 h2 h3 _ h5 _
    simp only [Host.Outcome.next.injEq] at h
    exact .inr (.inr (.inr (.inr (.inr (.inr (.inr ⟨h0, h1, h2, h3, h5, h.symm⟩))))))

/-- Everything one event can answer. -/
theorem hostEvent_next {s t : State} {e : HostEvent} (h : hostEvent e s = .next t) :
    (e = .reset ∧ t = resetEngine s) ∨
    (∃ off, e = .read 32 off ∧ off.toNat % 4 = 0 ∧ t = s.logRead (hostRead s off.toNat)) ∨
    (∃ off v, e = .write 32 off v ∧ off.toNat % 4 = 0 ∧ hostWrite s off.toNat v = .next t) := by
  cases e with
  | read bits off =>
    simp only [hostEvent] at h
    cases ha : accessFault bits off with
    | some f => rw [ha] at h; simp at h
    | none =>
      rw [ha] at h
      obtain ⟨rfl, h4⟩ := accessFault_eq_none.1 ha
      simp only [Host.Outcome.next.injEq] at h
      exact .inr (.inl ⟨off, rfl, h4, h.symm⟩)
  | write bits off v =>
    simp only [hostEvent] at h
    cases ha : accessFault bits off with
    | some f => rw [ha] at h; simp at h
    | none =>
      rw [ha] at h
      obtain ⟨rfl, h4⟩ := accessFault_eq_none.1 ha
      exact .inr (.inr ⟨off, v, rfl, h4, h⟩)
  | reset =>
    simp only [hostEvent, Host.Outcome.next.injEq] at h
    exact .inl ⟨rfl, h.symm⟩

/-- Everything one step can answer: nothing where no access waits, else the first access carried out. -/
theorem step_next {s t : State} (h : step s = .next t) :
    (s.pending = [] ∧ t = s) ∨ ∃ e rest, s.pending = e :: rest ∧ hostEvent e (s.setPending rest) = .next t := by
  unfold step nextAccess at h
  cases hp : s.pending with
  | nil =>
    rw [hp] at h
    simp only [Host.Outcome.next.injEq] at h
    exact .inl ⟨rfl, h.symm⟩
  | cons e rest =>
    rw [hp] at h
    exact .inr ⟨e, rest, rfl, h⟩

/-- A run's first step, peeled off. -/
theorem core_run_succ {n : Nat} {s t : State} (h : step s = .next t) :
    Sys2Proof.core.run (n + 1) s = Sys2Proof.core.run n t := by
  have key : ∀ (M : Host.Core) (x y : M.State), M.step x = .next y → M.run (n + 1) x = M.run n y := by
    intro M x y hx
    rw [Host.Core.run, hx]
  exact key _ _ _ h

/-- A step whose next access is an accepted read. -/
theorem step_read {s : State} {off : Word} {rest : List HostEvent} (hp : s.pending = .read 32 off :: rest)
    (h4 : off.toNat % 4 = 0) :
    step s = .next ((s.setPending rest).logRead (hostRead (s.setPending rest) off.toNat)) := by
  simp only [step, nextAccess, hp, hostEvent, accessFault_eq_none.2 ⟨rfl, h4⟩]

/-- A step whose next access is an accepted write. -/
theorem step_write {s : State} {off v : Word} {rest : List HostEvent} (hp : s.pending = .write 32 off v :: rest)
    (h4 : off.toNat % 4 = 0) : step s = hostWrite (s.setPending rest) off.toNat v := by
  simp only [step, nextAccess, hp, hostEvent, accessFault_eq_none.2 ⟨rfl, h4⟩]

/-- What ExecuteCommand can answer: the decoded command's answer, or IllegalCommand (30_encoding.md R70). -/
theorem executeCommand_next {s t : State} {v : Word} (h : executeCommand v s = .next t) :
    (∃ i, decode v = .ok i ∧ exec i s = .next t) ∨ ((∃ e, decode v = .error e) ∧ t = s.raise .illegalCommand) := by
  unfold executeCommand at h
  cases hd : decode v with
  | ok i => rw [hd] at h; exact .inl ⟨i, rfl, h⟩
  | error e =>
    rw [hd] at h
    simp only [Host.Outcome.next.injEq] at h
    exact .inr ⟨⟨e, rfl⟩, h.symm⟩

/-- Each lane of a host read of a store: the byte stored, or a free byte (10_state.md R40). -/
theorem byteOf_hostStoreWord (s : State) (a j : Nat) (h : j < 4) : byteOf (hostStoreWord s a) j = hostByte s a j := by
  obtain ⟨h0, h1, h2, h3⟩ := byteOf_le32 (hostByte s a 0) (hostByte s a 1) (hostByte s a 2) (hostByte s a 3)
  unfold hostStoreWord
  obtain rfl | rfl | rfl | rfl : j = 0 ∨ j = 1 ∨ j = 2 ∨ j = 3 := by omega
  · exact h0
  · exact h1
  · exact h2
  · exact h3

/-- Each byte after a word is written into the stores (20_memory.md R45). -/
theorem read_writeWord (m : Memory) (a : Nat) (v : Word) (x : Nat) :
    (m.writeBytes a (bytesOf v).toList).read x = if a ≤ x ∧ x < a + 4 then some (byteOf v (x - a)) else m.read x := by
  rw [Memory.read_writeBytes]
  have hl : (bytesOf v).toList.length = 4 := by simp
  rw [hl]
  by_cases h : a ≤ x ∧ x < a + 4
  · rw [if_pos h, if_pos h]
    have : x - a = 0 ∨ x - a = 1 ∨ x - a = 2 ∨ x - a = 3 := by omega
    rcases this with e | e | e | e <;> rw [e] <;> rfl
  · rw [if_neg h, if_neg h]

end Sys2Proof.Machine
end

