-- ==== Sys2Proof/Tests/Slice0.lean ====
section
/-! SUPPORT. Tests on fixed values, from the vectors of 95_test_vectors.md and the tables of spec/; then, for each obligation
with hypotheses, states and operands that meet them all together. -/

namespace Sys2Proof.Tests

open Sys2Proof Sys2Proof.Machine

/-! ## The kit -/

/-- The reset state with a buffer RAM of 64 bytes. -/
def blank : State := { State.reset with bufBytes := 64 }

/-- The block I of 95_test_vectors.md section 4. -/
def blockI : Block := #v[0x00, 0x01, 0x02, 0x03, 0x04, 0x05, 0x06, 0x07, 0x08, 0x09, 0x0a, 0x0b, 0x0c, 0x0d, 0x0e, 0x0f]

/-- The all-zero block. -/
def zeroBlock : Block := #v[0, 0, 0, 0, 0, 0, 0, 0, 0, 0, 0, 0, 0, 0, 0, 0]

/-- The tables of CFG-T, 95_test_vectors.md section 1. -/
def tableT (t : Nat) (x : Byte) : Byte := (x ^^^ (x >>> 3)) * BitVec.ofNat 8 (2 * t + 1) + BitVec.ofNat 8 (16 * t + 5)

/-- CFG-T's entries of table t at the first 16 indices. -/
def entriesT (t : Nat) : Memory := (List.range 16).map fun x => (sboxOff t (BitVec.ofNat 8 x), tableT t (BitVec.ofNat 8 x))

/-- `n` bytes `b` from offset `a` up. -/
def fill (a n : Nat) (b : Byte) : Memory := (List.range n).map fun i => (a + i, b)

/-- The KEY of CFG-Z', whose transformed key is all zero. -/
def keyZ : Block := #v[0x27, 0x26, 0x25, 0x24, 0x23, 0x22, 0x21, 0x20, 0x1f, 0x1e, 0x1d, 0x1c, 0x1b, 0x1a, 0x19, 0x18]

/-- Round key 1 holding 00 01 .. 0f. -/
def countingKey : Memory := (List.range 16).map fun i => (0x110 + i, BitVec.ofNat 8 i)

/-- Does the outcome lead to a next state that `p` accepts? -/
def leads (o : Host.Outcome State Fault Refusal) (p : State → Bool) : Bool :=
  match o with
  | .next t => p t
  | .fault _ => false
  | .refused _ => false

/-- Does the outcome fault with `f`? -/
def faults (o : Host.Outcome State Fault Refusal) (f : Fault) : Bool :=
  match o with
  | .next _ => false
  | .fault g => decide (g = f)
  | .refused _ => false

/-- `s` in which the host's accesses `es` wait. -/
def given (s : State) (es : List HostEvent) : State := s.setPending es

/-- A 32-bit host write. -/
def wr (off : Nat) (v : Word) : HostEvent := .write 32 (BitVec.ofNat 32 off) v

/-- A 32-bit host read. -/
def rd (off : Nat) : HostEvent := .read 32 (BitVec.ofNat 32 off)

/-! ## Well-formedness and encoding (30_encoding.md R68, R69, R71; V-EN-1) -/

theorem test_addrk_11_ill_formed : (Instr.addrk 11#4).wellFormed = false := by decide

theorem test_addrk_10_well_formed : (Instr.addrk 10#4).wellFormed = true := by decide

/-- R69: INIT is OP 0x01, all other bits 0. -/
theorem test_decode_init : decode 0b00000000000000000000000000000001#32 = .ok .init := by decide

/-- R69: DBLK is OP 0x02. -/
theorem test_decode_dblk : decode 0b00000000000000000000000000000010#32 = .ok .dblk := by decide

/-- R69: DBUF is OP 0x03. -/
theorem test_decode_dbuf : decode 0b00000000000000000000000000000011#32 = .ok .dbuf := by decide

/-- R69: PERM is OP 0x10. -/
theorem test_decode_perm : decode 0b00000000000000000000000000010000#32 = .ok .perm := by decide

/-- R69: SUBST is OP 0x11. -/
theorem test_decode_subst : decode 0b00000000000000000000000000010001#32 = .ok .subst := by decide

/-- R69: MIXCOL 2 is OP 0x12 with ARG = 2 in bits 11:8. -/
theorem test_decode_mixcol : decode 0b00000000000000000000001000010010#32 = .ok (.mixcol 2#2) := by decide

/-- R69: ADDRK 10 is OP 0x13 with ARG = 10 in bits 11:8. -/
theorem test_decode_addrk : decode 0b00000000000000000000101000010011#32 = .ok (.addrk 10#4) := by decide

/-- V-EN-1: none of these words is a command. -/
theorem test_decode_illegal :
    ([0x00000000#32, 0x00000004#32, 0x000000FF#32, 0x00000101#32, 0x00000412#32, 0x00000B13#32, 0x00000F13#32,
      0x00001001#32, 0x80000002#32].all fun w => (decodeTableWord 32 w.toNat).isNone) = true := by decide

/-- R69, R72: the words of the two commands with an argument. -/
theorem test_encode_arguments :
    encode (.mixcol 3#2) = 0x00000312#32 ∧ encode (.addrk 10#4) = 0x00000A13#32 := by decide

/-! ## Key schedule (40_key_schedule.md) -/

/-- R77 with KEY = 00 .. 0f (V-KS-2, row 0). -/
theorem test_transform_key :
    transformKey blockI = #v[0x27, 0x27, 0x27, 0x27, 0x27, 0x27, 0x27, 0x27, 0x17, 0x17, 0x17, 0x17, 0x17, 0x17, 0x17, 0x17] := by
  decide

/-- V-KS-2, rows 16 and 32 from the rows before them: CFG-T, mixing-vector entries 01 and 02. -/
theorem test_next_round_key :
    nextRoundKey (tableT 8) 0x01
      #v[0x27, 0x27, 0x27, 0x27, 0x27, 0x27, 0x27, 0x27, 0x17, 0x17, 0x17, 0x17, 0x17, 0x17, 0x17, 0x17] =
      #v[0xcc, 0xcd, 0xcd, 0xcd, 0xeb, 0xea, 0xea, 0xea, 0xfc, 0xfd, 0xfd, 0xfd, 0xeb, 0xea, 0xea, 0xea] ∧
    nextRoundKey (tableT 8) 0x02
      #v[0xcc, 0xcd, 0xcd, 0xcd, 0xeb, 0xea, 0xea, 0xea, 0xfc, 0xfd, 0xfd, 0xfd, 0xeb, 0xea, 0xea, 0xea] =
      #v[0x22, 0x21, 0x21, 0x16, 0xc9, 0xcb, 0xcb, 0xfc, 0x35, 0x36, 0x36, 0x01, 0xde, 0xdc, 0xdc, 0xeb] := by
  decide

/-- V-KS-5: under CFG-Z' the schedule is all zero; SBOX[8][0] = 0 is the only entry looked up. -/
theorem test_init :
    leads (exec .init { blank with key := keyZ, mem := [(0xF00, 0x00)], err := 2#4 })
      (fun t => decide (t.err = 0#4 ∧ t.ready = true ∧ t.mem = fill 0x100 176 0x00 ++ [(0xF00, 0x00)])) = true := by
  decide +kernel

/-- V-KS-7: INIT with ARG = 1 is IllegalCommand. -/
theorem test_init_with_argument :
    leads (step (given blank [wr 0x000 0x00000101#32])) (fun t => decide (t.err = 4#4 ∧ t.ready = false)) = true := by decide

/-! ## Block primitives (41_block_transform.md) -/

/-- V-BT-1, and V-BT-10: no READY needed. -/
theorem test_perm :
    leads (exec .perm { blank with blk := blockI, err := 3#4 }) (fun t => decide (t.err = 0#4 ∧ t.blk =
      #v[0x00, 0x0d, 0x0a, 0x07, 0x04, 0x01, 0x0e, 0x0b, 0x08, 0x05, 0x02, 0x0f, 0x0c, 0x09, 0x06, 0x03])) = true := by
  decide

/-- V-BT-3. -/
theorem test_subst :
    leads (exec .subst { blank with blk := blockI, mem := entriesT 7 }) (fun t => decide (t.err = 0#4 ∧ t.blk =
      #v[0x75, 0x84, 0x93, 0xa2, 0xb1, 0xc0, 0xcf, 0xde, 0xfc, 0xed, 0x1a, 0x0b, 0x38, 0x29, 0x56, 0x47])) = true := by
  decide

/-- 10_state.md R40: a lookup of an unwritten entry faults; the first one is SBOX[7][0x00]. -/
theorem test_subst_unwritten : faults (exec .subst { blank with blk := blockI }) (.unwrittenSbox 0xE00) = true := by decide

/-- V-BT-6: MIXCOL 1 on I under CFG-T. -/
theorem test_mixcol :
    leads (exec (.mixcol 1#2) { blank with blk := blockI, mem := entriesT 1 ++ entriesT 2 ++ entriesT 3 ++ entriesT 4 })
      (fun t => decide (t.err = 0#4 ∧ t.blk =
        #v[0x00, 0x01, 0x02, 0x03, 0xbe, 0x5a, 0x0a, 0x3e, 0x08, 0x09, 0x0a, 0x0b, 0x0c, 0x0d, 0x0e, 0x0f])) = true := by
  decide

/-- V-BT-7: MIXCOL 0 on the column 01 00 00 00 under CFG-T. -/
theorem test_mixcol_rows :
    mixOut tableT #v[0x01, 0x00, 0x00, 0x00] 0 = 0x4d#8 ∧ mixOut tableT #v[0x01, 0x00, 0x00, 0x00] 1 = 0x4b#8 ∧
    mixOut tableT #v[0x01, 0x00, 0x00, 0x00] 2 = 0x4f#8 ∧ mixOut tableT #v[0x01, 0x00, 0x00, 0x00] 3 = 0x49#8 := by decide

/-- V-BT-8's shape at round key 1, the schedule byte 16 + i being i: on I this gives zero. -/
theorem test_addrk :
    leads (exec (.addrk 1#4) { blank with blk := blockI, ready := true, mem := countingKey })
      (fun t => decide (t.err = 0#4 ∧ t.blk = zeroBlock)) = true := by decide

/-- V-BT-9: ADDRK 3 while READY = 0. -/
theorem test_addrk_not_ready :
    leads (exec (.addrk 3#4) { blank with blk := blockI }) (fun t => decide (t.err = 1#4 ∧ t.blk = blockI)) = true := by
  decide

/-! ## The sequencer (42_engine_commands.md) -/

/-- V-DB-5, round 9, from the BLK after ADDRK 10: PERM, SUBST and the whole round. -/
theorem test_round_nine :
    (let b : Block := #v[0x71, 0x71, 0x7f, 0x3e, 0x69, 0x6c, 0x1c, 0xf9, 0x00, 0x2f, 0x9c, 0x75, 0x79, 0x42, 0x1c, 0x89]
     substitute (tableT 7) (permute b)) =
      #v[0xe6, 0xcb, 0xd6, 0xef, 0x51, 0xe6, 0x46, 0xaa, 0x75, 0x24, 0x05, 0x5d, 0x5f, 0xeb, 0x46, 0xcc] ∧
    mixAll tableT
      #v[0xb4, 0xe2, 0x77, 0xc5, 0x4d, 0xff, 0x21, 0x69, 0x10, 0x6b, 0x89, 0xdd, 0x22, 0x82, 0xc2, 0x34] =
      #v[0x54, 0x0a, 0xbc, 0x92, 0xa3, 0x3d, 0x29, 0x47, 0x92, 0xfe, 0xe6, 0x6a, 0xd4, 0x64, 0xb4, 0x84] := by
  decide

/-- V-DB-7. -/
theorem test_dblk_not_ready :
    leads (exec .dblk { blank with blk := blockI }) (fun t => decide (t.err = 1#4 ∧ t.blk = blockI)) = true := by decide

/-- V-DF-2 and V-DF-10: LEN = 20 while READY = 0. -/
theorem test_dbuf_bad_length :
    leads (exec .dbuf { blank with len := 20#32, outLen := 7#32 }) (fun t => decide (t.err = 2#4 ∧ t.outLen = 0#32)) = true := by
  decide

/-! ## The host window (20_memory.md; V-EN-2 to V-EN-7) -/

/-- V-EN-2: READY = 1 and ERR = 3 read 0x31. -/
theorem test_status_word :
    leads (step (given { blank with ready := true, err := 3#4 } [rd 0x004])) (fun t => decide (t.readLog = [0x31#32])) = true := by
  decide

/-- V-EN-3: a write to MIXV2, which clears READY; the upper half is not stored. -/
theorem test_mixv2 :
    leads (Sys2Proof.core.run 2 (given { blank with ready := true } [wr 0x028 0xAABB0201#32, rd 0x028]))
      (fun t => decide (t.readLog = [0x00000201#32] ∧ t.mixv[9] = 0x02#8 ∧ t.ready = false)) = true := by decide

/-- V-EN-6: a write to SBOX[2]'s last word clears READY and stores its bytes low lane first. -/
theorem test_sbox_write :
    leads (step (given { blank with ready := true } [wr 0x9FC 0x44332211#32]))
      (fun t => decide (t.ready = false ∧ t.mem = [(0x9FC, 0x11), (0x9FD, 0x22), (0x9FE, 0x33), (0x9FF, 0x44)])) = true := by
  decide

/-- V-EN-7: a misaligned write faults, and so does a 16-bit read. -/
theorem test_bus_errors :
    faults (step (given blank [wr 0x002 1#32])) (.busMisaligned 2#32) = true ∧
    faults (step (given blank [.read 16 0x004#32])) (.busWidth 16) = true := by decide

/-! ## The notation of host programs (30_encoding.md R73, R76) -/

/-- R73: case-insensitive mnemonics, commas, comments, `rd OFF => VAL`. -/
theorem test_assemble :
    assembleLine ['w', 'r', ' ', '0', 'x', '0', '1', '0', ',', ' ', '0', 'x', '2', '4', ' ', '#', ' ', 'k'] =
      some (.wr 0x010#32 0x24#32) ∧
    assembleLine ['r', 'd', ' ', '0', 'x', '4', ' ', '=', '>', ' ', '1', '7'] = some (.rdIs 0x4#32 17#32) ∧
    assembleLine ['A', 'd', 'd', 'r', 'K', ' ', '1', '1'] = none := by decide

/-- R76: the form of an illegal word. -/
theorem test_disassemble_illegal :
    disassemble 0x00000B13#32 =
      ['.', 'w', 'o', 'r', 'd', ' ', '0', 'x', '0', '0', '0', '0', '0', 'B', '1', '3', ' ', ' ', '#', ' ', 'i', 'l', 'l', 'e',
        'g', 'a', 'l'] := by decide

/-! ## Loaded stores, for the witnesses -/

/-- Stores with every byte of SCHED `k`, every table entry `c` and zero bytes in `BUF[b..b+n)` only. -/
@[irreducible] def stores (b n : Nat) (c k : Byte) : Memory :=
  ((Memory.writeBytes [] 0x100 (List.replicate 176 k)).writeBytes 0x800 (List.replicate 2048 c)).writeBytes (0x1000 + b)
    (List.replicate n 0#8)

/-- The stores with all 64 bytes of BUF zero. -/
abbrev loaded (c k : Byte) : Memory := stores 0 64 c k

/-- The ready engine with stores m and LEN = n. -/
def readyWith (m : Memory) (n : Word) : State := { blank with ready := true, mem := m, len := n }

theorem stores_read (b n : Nat) (c k : Byte) (a : Nat) :
    (stores b n c k).read a =
      if 0x1000 + b ≤ a ∧ a < 0x1000 + b + n then some 0#8
      else if 0x800 ≤ a ∧ a < 0x1000 then some c
      else if 0x100 ≤ a ∧ a < 0x1B0 then some k
      else none := by
  have e : ∀ (n i : Nat) (x : Byte), i < n → (List.replicate n x)[i]? = some x := by
    intro n i x h
    rw [List.getElem?_replicate, if_pos h]
  unfold stores
  rw [Memory.read_writeBytes, Memory.read_writeBytes, Memory.read_writeBytes]
  simp only [List.length_replicate, Memory.read_nil]
  by_cases h1 : 0x1000 + b ≤ a ∧ a < 0x1000 + b + n
  · rw [if_pos h1, if_pos h1]; exact e _ _ _ (by omega)
  · rw [if_neg h1, if_neg h1]
    by_cases h2 : 0x800 ≤ a ∧ a < 0x1000
    · rw [if_pos h2, if_pos h2, e _ _ _ (by omega)]
    · rw [if_neg h2, if_neg h2]
      by_cases h3 : 0x100 ≤ a ∧ a < 0x1B0
      · rw [if_pos h3, if_pos h3, e _ _ _ (by omega)]
      · rw [if_neg h3, if_neg h3]

variable {b n : Nat}

theorem loaded_wf (c k : Byte) : (stores b n c k).wf = true := by
  unfold stores
  exact Memory.wf_writeBytes _ _ _ (Memory.wf_writeBytes _ _ _ (Memory.wf_writeBytes _ _ _ rfl))

theorem loaded_entry (c k : Byte) (t : Nat) (x : Byte) (h1 : 1 ≤ t) (h8 : t ≤ 8) :
    (stores b n c k).read (sboxOff t x) = some c := by
  have := x.isLt
  simp only [sboxOff, offSbox]
  rw [stores_read, if_neg (by omega), if_pos (by omega)]

theorem loaded_schedByte (c k : Byte) (i : Nat) (h : i < 176) : (stores b n c k).read (schedOff i) = some k := by
  simp only [schedOff, offSched]
  rw [stores_read, if_neg (by omega), if_neg (by omega), if_pos (by omega)]

theorem loaded_table (c k : Byte) (t : Nat) (h1 : 1 ≤ t) (h8 : t ≤ 8) : TableLoaded (stores b n c k) t :=
  fun x => (Memory.written_iff _ _).2 ⟨c, loaded_entry c k t x h1 h8⟩

theorem loaded_sched (c k : Byte) : SchedLoaded (stores b n c k) :=
  fun i hi => (Memory.written_iff _ _).2 ⟨k, loaded_schedByte c k i hi⟩

theorem loaded_decrypt (c k : Byte) : DecryptLoaded (stores b n c k) :=
  ⟨loaded_table c k 1 (by decide) (by decide), loaded_table c k 2 (by decide) (by decide),
    loaded_table c k 3 (by decide) (by decide), loaded_table c k 4 (by decide) (by decide),
    loaded_table c k 7 (by decide) (by decide), loaded_sched c k⟩

/-- With the tables and the schedule loaded, a block of BUF that is loaded has all that its decryption reads. -/
theorem loaded_block (c k : Byte) (d : Nat) (h : b ≤ d ∧ d + 16 ≤ b + n) :
    ∀ a, BufBlockReads (stores b n c k) d a → (stores b n c k).written a = true := by
  rintro a (ha | ha)
  · exact (Memory.written_iff _ _).2 ⟨0#8, by rw [stores_read, if_pos (by omega)]⟩
  · exact (loaded_decrypt c k).reads_written ha

theorem loaded_buf (c k : Byte) (a n : Nat) (h : a + n ≤ 64) : BufLoaded (loaded c k) a n := by
  intro i hi
  refine (Memory.written_iff _ _).2 ⟨0#8, ?_⟩
  simp only [bufOff, offBuf]
  rw [stores_read, if_pos (by omega)]

/-- With a constant table 7, DecryptBlock gives that constant XOR round key 0: no diffusion follows round 0
(42_engine_commands.md R103). -/
theorem decryptRounds_constant (S : Nat → Byte → Byte) (K : Nat → Byte) (c : Byte) (h : ∀ x, S 7 x = c) (i : Fin 16) :
    ∀ (r : Nat) (B : Block), (decryptRounds S K r B)[i] = c ^^^ K i.val := by
  intro r
  induction r with
  | zero => intro B; simp only [decryptRounds, addRoundKey_get, substitute_get, h, Nat.mul_zero, Nat.zero_add]
  | succ r ih => intro B; exact ih _

theorem decrypted_loaded (c k : Byte) (B : Block) (i : Fin 16) : (decryptedBlock (stores b n c k) B)[i] = c ^^^ k := by
  have h7 : ∀ x, (stores b n c k).sbox 7 x = c := by
    intro x
    simp only [Memory.sbox, loaded_entry c k 7 x (by decide) (by decide), Option.getD_some]
  have hk : (stores b n c k).sched i.val = k := by
    simp only [Memory.sched, loaded_schedByte c k i.val (by omega), Option.getD_some]
  unfold decryptedBlock decryptBlock
  rw [decryptRounds_constant _ _ c h7, hk]

theorem readyWith_ready (m : Memory) (n : Word) : (readyWith m n).ready = true := rfl

theorem readyWith_mem (m : Memory) (n : Word) : (readyWith m n).mem = m := rfl

theorem readyWith_len (m : Memory) (n : Word) : (readyWith m n).len = n := rfl

theorem padLength_ready (c k : Byte) (l : Word) : padLength (readyWith (stores b n c k) l) = (c ^^^ k).toNat := by
  unfold padLength
  rw [readyWith_mem]
  exact congrArg BitVec.toNat (decrypted_loaded c k _ 15)

/-- The ready engine runs DBLK on any loaded stores. -/
theorem dblk_ready (m : Memory) (n : Word) (h : DecryptLoaded m) :
    exec .dblk (readyWith m n) = .next ((readyWith m n).setBlk (decryptedBlock m (readyWith m n).blk)).succeed := by
  simp only [exec, execDblk, readyWith_ready, readyWith_mem, decryptBlockStep_of_loaded h, finishBlk, Bool.true_eq_false,
    if_false]

theorem readyWith_bufBytes (m : Memory) (n : Word) : (readyWith m n).bufBytes = 64 := rfl

/-- The ready engine runs DBUF on any loaded stores whose last block ends in a good pad byte. -/
theorem dbuf_ready (m : Memory) (n : Word) (h : DecryptLoaded m) (hb : BufLoaded m 0 n.toNat)
    (hn : 0 < n.toNat ∧ n.toNat % 16 = 0 ∧ n.toNat ≤ 64) (p : Nat) (hp : padLength (readyWith m n) = p)
    (h1 : 1 ≤ p ∧ p ≤ 16) :
    ∃ m', exec .dbuf (readyWith m n) =
      .next (((readyWith m n).setMem m').setOutLen (BitVec.ofNat 32 (n.toNat - p))).succeed := by
  have hl : badLength (readyWith m n) = false := by
    rw [Bool.eq_false_iff, ne_eq, badLength_iff, readyWith_len, readyWith_bufBytes]
    omega
  have hq : badPadding p n.toNat = false := by
    rw [Bool.eq_false_iff, ne_eq, badPadding_iff (by omega)]
    omega
  have hlast : lastBlockStep (readyWith m n) = .ok (decryptedBlock m (bufBlock m (n.toNat - 16))) := by
    refine lastBlockStep_of_loaded h fun i hi => ?_
    have := hb (n.toNat - 16 + i) (by omega)
    rwa [Nat.zero_add] at this
  have e : (decryptedBlock m (bufBlock m (n.toNat - 16)))[15].toNat = p := hp
  obtain ⟨m', hd⟩ := decryptBlocksStep_of_loaded (n.toNat / 16) 0 m h (by
    rw [show 16 * (n.toNat / 16) = n.toNat by omega]
    exact hb)
  refine ⟨m', ?_⟩
  simp only [exec, execDbuf, hl, readyWith_ready, dbufDecrypt, hlast, e, readyWith_len, readyWith_mem, hq, hd, Bool.true_eq_false,
    Bool.false_eq_true, if_false]

/-- DBLK on the ready engine: every byte of BLK becomes c XOR k (R103, R106). -/
theorem test_dblk (c k : Byte) :
    ∃ t, exec .dblk (readyWith (loaded c k) 0#32) = .next t ∧ t.err = 0#4 ∧ ∀ i : Fin 16, t.blk[i] = c ^^^ k := by
  refine ⟨_, dblk_ready _ _ (loaded_decrypt c k), by simp, fun i => ?_⟩
  simp only [State.succeed_blk, State.setBlk_blk]
  exact decrypted_loaded c k _ i

/-- DBUF on the ready engine with LEN = 64 and c XOR k = 16: it succeeds with OUT_LEN = 48 (R110, R112). -/
theorem test_dbuf :
    ∃ t, exec .dbuf (readyWith (loaded 0x10 0x00) 64#32) = .next t ∧ t.err = 0#4 ∧ t.outLen = 48#32 := by
  obtain ⟨m, h⟩ := dbuf_ready (loaded 0x10 0x00) 64#32 (loaded_decrypt _ _) (loaded_buf _ _ _ _ (by decide)) (by decide) 16
    (padLength_ready _ _ _) (by decide)
  exact ⟨_, h, State.succeed_err _, State.setOutLen_outLen _ _⟩

/-! ## Witnesses: every obligation with hypotheses, met

One theorem for each obligation whose statement has hypotheses, in the obligations' order and under their names; where a
statement has several clauses, a boundary value for each. -/

/-- The engine under CFG-Z' before INIT. -/
def initState : State := { blank with key := keyZ, mem := [(0xF00, 0x00)], err := 2#4 }

/-- The engine under CFG-Z' after INIT. -/
def currentState : State := { blank with key := keyZ, ready := true, mem := fill 0x100 176 0x00 ++ [(0xF00, 0x00)] }

theorem of_leads {o : Host.Outcome State Fault Refusal} {p : State → Bool} (h : leads o p = true) :
    ∃ t, o = .next t ∧ p t = true := by
  cases o with
  | next t => exact ⟨t, rfl, h⟩
  | fault f => simp [leads] at h
  | refused r => simp [leads] at h

theorem blank_bufBytes : blank.bufBytes = 64 := rfl

theorem given_pending (s : State) (es : List HostEvent) : (given s es).pending = es := rfl

theorem given_one (s : State) (e : HostEvent) : (given s [e]).pending = e :: [] := rfl

theorem witness_DecodeOfEncodeIsIdentity :
    (Instr.addrk 10#4).wellFormed = true ∧ (Instr.mixcol 3#2).wellFormed = true ∧ Instr.dbuf.wellFormed = true := by decide

theorem witness_DecodedWordIsItsEncoding : decode 0x00000A13#32 = .ok (.addrk 10#4) ∧ decode 0x00000001#32 = .ok .init := by
  decide

theorem witness_StepRunsDecodedInstruction :
    (given blank [wr 0x000 0x00000010#32]).pending = .write 32 0x000#32 0x00000010#32 :: [] ∧
    decode 0x00000010#32 = .ok .perm := by decide

theorem witness_IssuedWordRunsItsCommand : Instr.init.wellFormed = true ∧ (Instr.addrk 0#4).wellFormed = true := by decide

/-- One word for each way of being illegal (V-EN-1): RSV, OP, ARG of INIT, ARG of MIXCOL, ARG of ADDRK. -/
theorem witness_IllegalWordOnlySetsErr :
    rsvField 0x80000002#32 ≠ 0#20 ∧ opField 0x00000000#32 ∉ [0x01#8, 0x02#8, 0x03#8, 0x10#8, 0x11#8, 0x12#8, 0x13#8] ∧
    (opField 0x00000101#32 ∈ [0x01#8, 0x02#8, 0x03#8, 0x10#8, 0x11#8] ∧ argField 0x00000101#32 ≠ 0#4) ∧
    (opField 0x00000412#32 = 0x12#8 ∧ (argField 0x00000412#32).extractLsb' 2 2 ≠ 0#2) ∧
    (opField 0x00000B13#32 = 0x13#8 ∧ 11 ≤ (argField 0x00000B13#32).toNat) := by decide

theorem witness_StepOfIllegalWordOnlySetsErr :
    (given blank [wr 0x000 0x00000B13#32]).pending = .write 32 0x000#32 0x00000B13#32 :: [] ∧
    0x00000B13#32 ∉ legalWords := by decide

theorem witness_NoAccessNoChange : blank.pending = [] := rfl

theorem witness_InitWritesExpandedSchedule : ∀ a ∈ initLookups initState, initState.mem.written a = true := by decide +kernel

theorem witness_InitTransformsKey : ∀ a ∈ initLookups initState, initState.mem.written a = true :=
  witness_InitWritesExpandedSchedule

theorem witness_ExpandHasClosedForm :
    (3 < 4 ∧ 0 < 4) ∧ (4 ≤ 4 ∧ 4 < 44 ∧ 4 % 4 = 0) ∧ (4 ≤ 40 ∧ 40 < 44 ∧ 40 % 4 = 0) ∧ (4 ≤ 43 ∧ 43 < 44 ∧ 43 % 4 ≠ 0) := by
  decide

theorem witness_SecondInitChangesNothing : initState.mem.wf = true ∧ ∃ t, exec .init initState = .next t :=
  ⟨rfl, (of_leads test_init).imp fun _ h => h.1⟩

theorem witness_InitFrame : ∃ t, exec .init initState = .next t := (of_leads test_init).imp fun _ h => h.1

theorem witness_SubstLooksUpTableSeven :
    ∀ i : Fin 16, ({ blank with blk := blockI, mem := entriesT 7 } : State).mem.written (0xE00 + blockI[i].toNat) = true := by
  decide

theorem witness_MixcolGivesTheFourRows (c : BitVec 2) :
    ∀ j, j < 4 → ∀ t, 1 ≤ t → t ≤ 4 →
      (readyWith (loaded 1 2) 0#32).mem.written
        (0x800 + 0x100 * (t - 1) + ((readyWith (loaded 1 2) 0#32).blk.getD (4 * c.toNat + j) 0#8).toNat) = true :=
  fun _ _ t h1 h4 => loaded_table 1 2 t h1 (by omega) _

theorem witness_AddrkXorsRoundKey :
    (10#4).toNat ≤ 10 ∧ (readyWith (loaded 1 2) 0#32).ready = true ∧
    ∀ i : Fin 16, (readyWith (loaded 1 2) 0#32).mem.written (0x100 + 16 * (10#4).toNat + i.val) = true :=
  ⟨by decide, rfl, fun i => roundKeyReads_written (loaded_sched 1 2) (r := 10) (by decide) ⟨i, rfl⟩⟩

/-- ADDRK on the ready engine. -/
theorem addrk_ready (m : Memory) (n : Word) (r : BitVec 4) (hr : r.toNat ≤ 10) (h : SchedLoaded m) :
    ∃ t, exec (.addrk r) (readyWith m n) = .next t := by
  refine ⟨((readyWith m n).setBlk (addRoundKey m.sched r.toNat (readyWith m n).blk)).succeed, ?_⟩
  simp only [exec, execAddrk, (legalRoundKey_iff r).2 hr, readyWith_ready, readyWith_mem, addRoundKeyStep_of_loaded h hr,
    finishBlk, Bool.true_eq_false, if_false]

theorem witness_AddrkTwiceRestoresBlk :
    (readyWith (loaded 1 2) 0#32).ready = true ∧ (10#4).toNat ≤ 10 ∧
    ∃ t, exec (.addrk 10#4) (readyWith (loaded 1 2) 0#32) = .next t :=
  ⟨rfl, by decide, addrk_ready _ _ _ (by decide) (loaded_sched _ _)⟩

theorem witness_BlockCommandsFrame :
    (∃ t, exec .perm blank = .next t) ∧ (∃ t, exec .subst { blank with blk := blockI, mem := entriesT 7 } = .next t) ∧
    (∃ t, exec (.mixcol 1#2) { blank with blk := blockI, mem := entriesT 1 ++ entriesT 2 ++ entriesT 3 ++ entriesT 4 } = .next t) ∧
    (∃ t, exec (.addrk 10#4) (readyWith (loaded 1 2) 0#32) = .next t) ∧
    (∃ t, exec .dblk (readyWith (loaded 1 2) 0#32) = .next t) ∧
    (∀ i : Instr, i = .perm ∨ i = .subst ∨ i = .mixcol 1#2 ∨ i = .addrk 10#4 ∨ i = .dblk → i ≠ .init ∧ i ≠ .dbuf) := by
  refine ⟨⟨_, rfl⟩, (of_leads test_subst).imp fun _ h => h.1, (of_leads test_mixcol).imp fun _ h => h.1,
    addrk_ready _ _ _ (by decide) (loaded_sched _ _), ⟨_, dblk_ready _ _ (loaded_decrypt _ _)⟩, ?_⟩
  rintro i (rfl | rfl | rfl | rfl | rfl) <;> decide

/-- INIT, SUBST and MIXCOL 3 after reset. DBLK while READY = 1: with nothing written; with the schedule written but no
table, where round 9 looks up table 7; and with everything written. -/
theorem witness_UnwrittenTableEntryFaults :
    (∃ a ∈ initLookups blank, blank.mem.read a = none) ∧
    (∃ a, SubstituteReads blank.blk a ∧ blank.mem.read a = none) ∧
    (∃ a, MixColumnReads (3#2).toFin blank.blk a ∧ blank.mem.read a = none) ∧
    ((readyWith [] 0#32).ready = true ∧
      ∃ a, DecryptReads (readyWith [] 0#32).mem (readyWith [] 0#32).blk a ∧ (readyWith [] 0#32).mem.read a = none) ∧
    (∃ a, 0x800 ≤ a ∧ DecryptReads (fill 0x100 176 0x00) zeroBlock a ∧ Memory.read (fill 0x100 176 0x00) a = none) ∧
    ∀ a, DecryptReads (readyWith (loaded 1 2) 0#32).mem (readyWith (loaded 1 2) 0#32).blk a →
      (readyWith (loaded 1 2) 0#32).mem.written a = true := by
  refine ⟨⟨_, List.mem_map_of_mem (show (rotated (wordOf (transformKey blank.key) 3))[0] ∈ _ from ?_), rfl⟩,
    ⟨_, ⟨15, rfl⟩, rfl⟩, ⟨_, ⟨15, rfl, 4, by decide, by decide, rfl⟩, rfl⟩, ⟨rfl, _, .inl ⟨0, rfl⟩, rfl⟩,
    ⟨_, Nat.le_add_right_of_le (by decide), .inr (.inl ⟨0, rfl⟩), ?_⟩, fun a => (loaded_decrypt 1 2).reads_written⟩
  · exact (mem_expandLookups _ _ _ _).2 ⟨0, 1, by decide, by decide, by rw [rotated_eq]; rfl⟩
  · decide +kernel

theorem currentState_current : ScheduleCurrent currentState := by
  constructor
  · decide +kernel
  · decide +kernel

theorem witness_ReadyStatesNeverFaultOnSched :
    Instr.dblk.wellFormed = true ∧ ReadyMeansCurrent currentState ∧ currentState.ready = true :=
  ⟨rfl, fun _ => currentState_current, rfl⟩

theorem witness_DblkDecryptsBlk :
    (readyWith (loaded 1 2) 0#32).ready = true ∧ DecryptLoaded (readyWith (loaded 1 2) 0#32).mem :=
  ⟨rfl, loaded_decrypt _ _⟩

theorem witness_PrimitiveSequenceEqualsDblk :
    (readyWith (loaded 1 2) 0#32).ready = true ∧ DecryptLoaded (readyWith (loaded 1 2) 0#32).mem :=
  ⟨rfl, loaded_decrypt _ _⟩

theorem witness_DbufRejectsBadLength :
    blank.len.toNat = 0 ∧ (readyWith [] 20#32).len.toNat % 16 ≠ 0 ∧
    (readyWith [] 80#32).len.toNat > (readyWith [] 80#32).bufBytes := by decide

theorem witness_DbufRejectsNotReady (n : Word) (h : n = 16#32 ∨ n = 64#32) :
    0 < (blank.setLen n).len.toNat ∧ (blank.setLen n).len.toNat % 16 = 0 ∧
    (blank.setLen n).len.toNat ≤ (blank.setLen n).bufBytes ∧ (blank.setLen n).ready = false := by
  rcases h with rfl | rfl <;> decide

/-- Pad bytes 0 and 17. -/
theorem witness_DbufRejectsBadPadding (c : Byte) (h : c = 0x02 ∨ c = 0x13) :
    0 < (readyWith (loaded c 2) 16#32).len.toNat ∧ (readyWith (loaded c 2) 16#32).len.toNat % 16 = 0 ∧
    (readyWith (loaded c 2) 16#32).len.toNat ≤ (readyWith (loaded c 2) 16#32).bufBytes ∧
    (readyWith (loaded c 2) 16#32).ready = true ∧ DecryptLoaded (readyWith (loaded c 2) 16#32).mem ∧
    BufLoaded (readyWith (loaded c 2) 16#32).mem ((readyWith (loaded c 2) 16#32).len.toNat - 16) 16 ∧
    (padLength (readyWith (loaded c 2) 16#32) < 1 ∨ 16 < padLength (readyWith (loaded c 2) 16#32)) := by
  rw [padLength_ready, readyWith_mem, readyWith_len, readyWith_bufBytes]
  refine ⟨by decide, by decide, by decide, rfl, loaded_decrypt _ _, loaded_buf _ _ _ _ (by decide), ?_⟩
  rcases h with rfl | rfl <;> decide

/-- Pad bytes 1 and 16, LEN = BUF_BYTES. -/
theorem witness_DbufDecryptsEveryBlock (c : Byte) (h : c = 0x03 ∨ c = 0x12) :
    0 < (readyWith (loaded c 2) 64#32).len.toNat ∧ (readyWith (loaded c 2) 64#32).len.toNat % 16 = 0 ∧
    (readyWith (loaded c 2) 64#32).len.toNat ≤ (readyWith (loaded c 2) 64#32).bufBytes ∧
    (readyWith (loaded c 2) 64#32).ready = true ∧ DecryptLoaded (readyWith (loaded c 2) 64#32).mem ∧
    BufLoaded (readyWith (loaded c 2) 64#32).mem 0 (readyWith (loaded c 2) 64#32).len.toNat ∧
    1 ≤ padLength (readyWith (loaded c 2) 64#32) ∧ padLength (readyWith (loaded c 2) 64#32) ≤ 16 := by
  rw [padLength_ready, readyWith_mem, readyWith_len, readyWith_bufBytes]
  refine ⟨by decide, by decide, by decide, rfl, loaded_decrypt _ _, loaded_buf _ _ _ _ (by decide), ?_⟩
  rcases h with rfl | rfl <;> decide

theorem witness_DbufBlockEqualsDblk :
    ∃ t, exec .dbuf (readyWith (loaded 0x10 0x00) 64#32) = .next t ∧ t.err = 0#4 ∧
      3 < (readyWith (loaded 0x10 0x00) 64#32).len.toNat / 16 :=
  test_dbuf.imp fun _ h => ⟨h.1, h.2.1, by rw [readyWith_len]; decide⟩

/-- A failing and a succeeding DBUF. -/
theorem witness_DbufOutLenInBounds :
    (∃ t, exec .dbuf blank = .next t ∧ t.err ≠ 0#4) ∧
    ∃ t, exec .dbuf (readyWith (loaded 0x10 0x00) 64#32) = .next t ∧ t.err = 0#4 :=
  ⟨⟨_, rfl, by decide⟩, test_dbuf.imp fun _ h => ⟨h.1, h.2.1⟩⟩

theorem witness_DbufFrame :
    (∃ t, exec .dbuf blank = .next t ∧ t.err ≠ 0#4) ∧ ∃ t, exec .dbuf (readyWith (loaded 0x10 0x00) 64#32) = .next t :=
  ⟨witness_DbufOutLenInBounds.1, test_dbuf.imp fun _ h => h.1⟩

/-- A failing DBLK, a failing DBUF and an illegal word. -/
theorem witness_FailureIsPrecise :
    (∃ t, executeCommand 0x00000002#32 blank = .next t ∧ t.err ≠ 0#4) ∧
    (∃ t, executeCommand 0x00000003#32 blank = .next t ∧ t.err ≠ 0#4) ∧
    ∃ t, executeCommand 0x000000FF#32 blank = .next t ∧ t.err ≠ 0#4 :=
  ⟨⟨_, rfl, by decide⟩, ⟨_, rfl, by decide⟩, ⟨_, rfl, by decide⟩⟩

/-- One command for each of the codes 0, 1 and 2; code 3 is `witness_DbufRejectsBadPadding`. -/
theorem witness_ErrCodesHaveTheirCauses :
    (∃ t, exec .perm blank = .next t ∧ t.err = 0#4) ∧ (∃ t, exec .dblk blank = .next t ∧ t.err = 1#4) ∧
    (∃ t, exec .dbuf blank = .next t ∧ t.err = 2#4) ∧
    Instr.perm.wellFormed = true ∧ Instr.dblk.wellFormed = true ∧ Instr.dbuf.wellFormed = true :=
  ⟨⟨_, rfl, rfl⟩, ⟨_, rfl, rfl⟩, ⟨_, rfl, rfl⟩, rfl, rfl, rfl⟩

theorem witness_NotReadyFailsDblkAndAddrk : blank.ready = false ∧ (10#4).toNat ≤ 10 := by decide

theorem witness_NoCommandWritesConfiguration :
    (∃ t, exec .init initState = .next t) ∧ (∃ t, exec .dbuf (readyWith (loaded 0x10 0x00) 64#32) = .next t) ∧
    ∃ t, exec .dblk (readyWith (loaded 1 2) 0#32) = .next t :=
  ⟨witness_InitFrame, witness_DbufFrame.2, ⟨_, dblk_ready _ _ (loaded_decrypt _ _)⟩⟩

theorem witness_CommandsKeepLenAndHostSide : ∃ t, exec .init initState = .next t := witness_InitFrame

/-- Two states that do differ, at both ends of tables 5 and 6. -/
theorem witness_TablesFiveAndSixNeverMatter :
    AgreeButTables56 blank (blank.setMem [(0xC00, 0x01), (0xDFF, 0x02)]) ∧
    blank ≠ blank.setMem [(0xC00, 0x01), (0xDFF, 0x02)] := by
  refine ⟨⟨fun a ha => ?_, rfl⟩, fun h => absurd (congrArg (fun s => s.mem.length) h) (by decide)⟩
  show Memory.read [(0xC00, 0x01#8), (0xDFF, 0x02#8)] a = none
  rw [Memory.read_cons, if_neg (by dsimp only; omega), Memory.read_cons, if_neg (by dsimp only; omega), Memory.read_nil]

theorem witness_BadAccessFaults :
    (given blank [.read 16 0x002#32]).pending = .read 16 0x002#32 :: [] ∧ 16 ≠ 32 ∧
    (given blank [.write 32 0x002#32 7#32]).pending = .write 32 0x002#32 7#32 :: [] ∧ (0x002#32).toNat % 4 ≠ 0 := by decide

/-- Each register and each reserved range, at its first and its last word. -/
theorem witness_HostReadsOfRegisters :
    (∀ off ∈ [0x000#32, 0x004#32, 0x008#32, 0x00C#32, 0x010#32, 0x01C#32, 0x020#32, 0x028#32, 0x02C#32, 0x030#32, 0x03C#32,
        0x040#32, 0x0FC#32, 0x1B0#32, 0x7FC#32, 0x1040#32, 0xFFFFFFFC#32],
      (given blank [.read 32 off]).pending = .read 32 off :: [] ∧ off.toNat % 4 = 0) ∧
    (∀ off ∈ [0x010#32, 0x01C#32], 0x010 ≤ off.toNat ∧ off.toNat < 0x020) ∧
    (∀ off ∈ [0x020#32, 0x028#32], 0x020 ≤ off.toNat ∧ off.toNat < 0x02C) ∧
    (∀ off ∈ [0x030#32, 0x03C#32], 0x030 ≤ off.toNat ∧ off.toNat < 0x040) ∧
    (∀ off ∈ [0x02C#32, 0x040#32, 0x0FC#32, 0x1B0#32, 0x7FC#32, 0x1040#32, 0xFFFFFFFC#32],
      off.toNat = 0x02C ∨ (0x040 ≤ off.toNat ∧ off.toNat < 0x100) ∨ (0x1B0 ≤ off.toNat ∧ off.toNat < 0x800) ∨
        0x1000 + blank.bufBytes ≤ off.toNat) := by
  simp [given_pending, blank_bufBytes]

/-- The first and the last word of SCHED, SBOX and BUF, one of whose bytes is written and another is not. -/
theorem witness_HostReadsOfStores :
    (∀ off ∈ [0x100#32, 0x1AC#32, 0x800#32, 0xFFC#32, 0x1000#32, 0x103C#32],
      (given (blank.setMem [(0x101, 0x07)]) [.read 32 off]).pending = .read 32 off :: [] ∧ off.toNat % 4 = 0 ∧
      ((0x100 ≤ off.toNat ∧ off.toNat < 0x1B0) ∨ (0x800 ≤ off.toNat ∧ off.toNat < 0x1000 + blank.bufBytes))) ∧
    (blank.setMem [(0x101, 0x07)]).mem.read ((0x100#32).toNat + 1) = some 0x07#8 ∧
    (blank.setMem [(0x101, 0x07)]).mem.read ((0x100#32).toNat + 3) = none := by
  simp [given_pending, blank_bufBytes]

/-- The first and the last word of each writable register. -/
theorem witness_HostWritesToRegisters :
    (∀ off ∈ [0x008#32, 0x010#32, 0x01C#32, 0x020#32, 0x028#32, 0x030#32, 0x03C#32],
      (given blank [.write 32 off 9#32]).pending = .write 32 off 9#32 :: [] ∧ off.toNat % 4 = 0) ∧
    (∀ off ∈ [0x010#32, 0x01C#32], 0x010 ≤ off.toNat ∧ off.toNat < 0x020) ∧
    (∀ off ∈ [0x020#32, 0x028#32], 0x020 ≤ off.toNat ∧ off.toNat < 0x02C) ∧
    (∀ off ∈ [0x030#32, 0x03C#32], 0x030 ≤ off.toNat ∧ off.toNat < 0x040) := by
  simp [given_pending]

/-- Both ends of SBOX and of BUF. -/
theorem witness_HostWritesToStores :
    ∀ off ∈ [0x800#32, 0xFFC#32, 0x1000#32, 0x103C#32],
      (given blank [.write 32 off 9#32]).pending = .write 32 off 9#32 :: [] ∧ off.toNat % 4 = 0 ∧ 0x800 ≤ off.toNat ∧
      off.toNat < 0x1000 + blank.bufBytes := by
  simp [given_pending, blank_bufBytes]

/-- STATUS, OUT_LEN, MIXV2's neighbour, both ends of the range that holds SCHED, and the end of BUF. -/
theorem witness_HostWritesIgnored :
    ∀ off ∈ [0x004#32, 0x00C#32, 0x02C#32, 0x040#32, 0x100#32, 0x1AC#32, 0x7FC#32, 0x1040#32],
      (given blank [.write 32 off 9#32]).pending = .write 32 off 9#32 :: [] ∧ off.toNat % 4 = 0 ∧
      (off.toNat = 0x004 ∨ off.toNat = 0x00C ∨ off.toNat = 0x02C ∨ (0x040 ≤ off.toNat ∧ off.toNat < 0x800) ∨
        0x1000 + blank.bufBytes ≤ off.toNat) := by
  simp [given_pending, blank_bufBytes]

theorem witness_WrittenWordReadsBack :
    ∀ off ∈ [0x008#32, 0x010#32, 0x024#32, 0x028#32, 0x030#32, 0x03C#32, 0x800#32, 0x103C#32],
      (given blank [.write 32 off 9#32, .read 32 off]).pending = .write 32 off 9#32 :: .read 32 off :: [] ∧
      off.toNat % 4 = 0 ∧
      (off.toNat = 0x028 ∨ off.toNat = 0x008 ∨ (0x010 ≤ off.toNat ∧ off.toNat < 0x028) ∨
        (0x030 ≤ off.toNat ∧ off.toNat < 0x040) ∨ (0x800 ≤ off.toNat ∧ off.toNat < 0x1000 + blank.bufBytes)) := by
  simp [given_pending, blank_bufBytes]

theorem init_steps (s : State) (h : ∀ a ∈ initLookups s, s.mem.written a = true) :
    ∃ t, step (given s [wr 0x000 0x00000001#32]) = .next t := by
  have h' : ∀ a ∈ initLookups (s.setPending []), (s.setPending []).mem.written a = true := h
  have hs : step (given s [wr 0x000 0x00000001#32]) = exec .init (s.setPending []) := by
    exact step_write (given_one s (.write 32 0x000#32 0x00000001#32)) (by decide)
  exact ⟨_, hs.trans (execInit_of_written h')⟩

/-- A reset, a read, INIT, PERM, a KEY, an SBOX and a BUF write, each answering a next state. -/
theorem witness_ReadinessStateMachine :
    (∀ e ∈ [.reset, rd 0x004, wr 0x000 0x00000010#32, wr 0x010 1#32, wr 0x028 1#32, wr 0x800 1#32, wr 0xFFC 1#32, wr 0x1000 1#32],
      ∃ t, step (given blank [e]) = .next t) ∧
    ∃ t, step (given initState [wr 0x000 0x00000001#32]) = .next t := by
  constructor
  · intro e he
    simp only [List.mem_cons, List.not_mem_nil, or_false] at he
    rcases he with rfl | rfl | rfl | rfl | rfl | rfl | rfl | rfl <;> exact ⟨_, rfl⟩
  · exact init_steps initState witness_InitWritesExpandedSchedule

theorem witness_OnlyCommandsAndResetWriteErr :
    ∃ t, step (given blank [wr 0x010 1#32]) = .next t ∧ wr 0x010 1#32 ≠ .reset ∧ ∀ v, wr 0x010 1#32 ≠ .write 32 0x000#32 v :=
  ⟨_, rfl, by decide, fun v h => by simp [wr] at h⟩

/-- Tables 1 and 8. -/
theorem witness_LdsboxLoadsTheTable (t : Nat) (h : t = 1 ∨ t = 8) :
    1 ≤ t ∧ t ≤ 8 ∧
    (given blank (accesses (ldsbox t fun x => x))).pending = accesses (ldsbox t fun x => x) ++ [] := by
  refine ⟨by omega, by omega, ?_⟩
  rw [List.append_nil, given_pending]

theorem witness_CommandTextRoundTrip : (Instr.addrk 10#4).wellFormed = true ∧ (Instr.mixcol 0#2).wellFormed = true := by decide

theorem witness_StepKeepsStoresWf :
    StoresWf (given blank [wr 0x103C 0x01020304#32]) ∧ ∃ t, step (given blank [wr 0x103C 0x01020304#32]) = .next t :=
  by
  refine ⟨⟨rfl, fun a ha => ?_, of_decide_eq_true rfl, of_decide_eq_true rfl, of_decide_eq_true rfl⟩, ⟨_, rfl⟩⟩
  simp [given, blank, State.reset, Memory.written] at ha

/-- READY = 1, and the access is a write to BUF, which keeps it. -/
theorem witness_StepKeepsScheduleCurrent :
    ReadyMeansCurrent (given currentState [wr 0x1000 1#32]) ∧ (given currentState [wr 0x1000 1#32]).ready = true ∧
    ∃ t, step (given currentState [wr 0x1000 1#32]) = .next t :=
  ⟨fun _ => currentState_current, rfl, ⟨_, rfl⟩⟩

theorem witness_StepKeepsErrDefined :
    ErrDefined (given { blank with err := 4#4 } [wr 0x000 0x00000000#32]) ∧
    ∃ t, step (given { blank with err := 4#4 } [wr 0x000 0x00000000#32]) = .next t :=
  ⟨of_decide_eq_true (p := (4#4).toNat ≤ 4) rfl, ⟨_, rfl⟩⟩

theorem witness_ResetInputRestoresResetValues : (given currentState [.reset]).pending = .reset :: [] := rfl

theorem witness_StepKeepsBufBytes : ∃ t, step (given blank [.reset]) = .next t := ⟨_, rfl⟩

/-- ADDRK 10 with nothing written. DBUF: its last block unwritten; a pad byte of 0 with the block before the last unwritten;
a pad byte of 1 with the same, and with every block written. -/
theorem witness_AddrkAndDbufFaultOnUnwrittenByte :
    ((10#4).toNat ≤ 10 ∧ (readyWith [] 32#32).ready = true ∧
      ∃ a, RoundKeyReads (10#4).toNat a ∧ (readyWith [] 32#32).mem.read a = none) ∧
    (∀ m : Memory, 0 < (readyWith m 32#32).len.toNat ∧ (readyWith m 32#32).len.toNat % 16 = 0 ∧
      (readyWith m 32#32).len.toNat ≤ (readyWith m 32#32).bufBytes ∧ (readyWith m 32#32).ready = true ∧
      (readyWith m 32#32).len.toNat - 16 = 16 ∧ (readyWith m 32#32).mem = m) ∧
    (∃ a, BufBlockReads (stores 0 16 1 2) 16 a ∧ (stores 0 16 1 2).read a = none) ∧
    (∀ c, ∀ a, BufBlockReads (stores 16 16 c 2) 16 a → (stores 16 16 c 2).written a = true) ∧
    padLength (readyWith (stores 16 16 2 2) 32#32) < 1 ∧
    (1 ≤ padLength (readyWith (stores 16 16 3 2) 32#32) ∧ padLength (readyWith (stores 16 16 3 2) 32#32) ≤ 16 ∧
      ∃ a, BufBlockReads (stores 16 16 3 2) (16 * 0) a ∧ (stores 16 16 3 2).read a = none) ∧
    (1 ≤ padLength (readyWith (loaded 3 2) 32#32) ∧ padLength (readyWith (loaded 3 2) 32#32) ≤ 16 ∧
      ∀ k a, k < 2 → BufBlockReads (loaded 3 2) (16 * k) a → (loaded 3 2).written a = true) := by
  simp only [padLength_ready]
  refine ⟨⟨by decide, rfl, _, ⟨0, rfl⟩, rfl⟩,
    fun m => by rw [readyWith_len, readyWith_bufBytes, readyWith_mem]; exact ⟨by decide, by decide, by decide, rfl, rfl, rfl⟩,
    ⟨0x1010, .inl (by decide), ?_⟩, fun c => loaded_block c 2 16 (by decide), by decide,
    ⟨by decide, by decide, 0x1000, .inl (by decide), ?_⟩, by decide, by decide,
    fun k a hk => loaded_block 3 2 (16 * k) (by omega) a⟩
  all_goals
    rw [stores_read]
    rfl

end Sys2Proof.Tests
end

section
/-! SUPPORT. The engine's scope (00_scope.md): the stores' invariant is kept by every step and holds at reset, and the commands
neither write nor read the host's side of a run. -/

namespace Sys2Proof.Machine

/-! ## The stores' invariant (R9, R44) -/

/-- The invariant speaks of the stores and the size parameter only. -/
theorem StoresWf.of_same_mem {s t : State} (h : StoresWf s) (hm : t.mem = s.mem) (hb : t.bufBytes = s.bufBytes) :
    StoresWf t := by
  rwa [StoresWf, hm, hb]

/-- New stores in canonical form keep the invariant when each byte that was unwritten before lies in one of the stores. -/
theorem StoresWf.of_new_mem {s t : State} (h : StoresWf s) (hb : t.bufBytes = s.bufBytes) (hwf : t.mem.wf = true)
    (hnew : ∀ a, t.mem.written a = true → inStores s.bufBytes a ∨ s.mem.written a = true) : StoresWf t := by
  obtain ⟨-, hin, hsize⟩ := h
  rw [StoresWf, hb]
  exact ⟨hwf, fun a ha => (hnew a ha).elim id (hin a), hsize⟩

/-- A run of bytes written inside the stores keeps the invariant. -/
theorem StoresWf.of_writeBytes {s t : State} {a : Nat} {bs : List Byte} (h : StoresWf s)
    (hm : t.mem = s.mem.writeBytes a bs) (hb : t.bufBytes = s.bufBytes)
    (hin : ∀ x, a ≤ x ∧ x < a + bs.length → inStores s.bufBytes x) : StoresWf t := by
  refine h.of_new_mem hb (hm ▸ Memory.wf_writeBytes bs _ a h.1) fun x hx => ?_
  rw [hm, Memory.written_writeBytes] at hx
  exact hx.imp_left (hin x)

/-- Whatever the uninterpreted number of blocks is, `Config.bufBytes` is admissible (log entry 6). -/
theorem admissibleSize_configBufBytes : AdmissibleSize Config.bufBytes := by
  unfold AdmissibleSize Config.bufBytes
  omega

/-- Empty stores, as reset leaves them (R41), meet the invariant. -/
theorem storesWf_of_mem_eq_nil {s : State} (hm : s.mem = []) (hb : AdmissibleSize s.bufBytes) : StoresWf s := by
  rw [StoresWf, hm]
  exact ⟨rfl, fun a ha => absurd ha (by simp [Memory.written]), hb⟩

/-! ## Commands: the host's side, LEN and the stores -/

/-- No command writes LEN (10_state.md R42) or the host's side of the run. -/
theorem exec_keeps_len_and_hostSide {i : Instr} {s t : State} (h : exec i s = .next t) :
    t.len = s.len ∧ SameHostSide s t := by
  have finish {r : Except Fault Block} (hf : finishBlk s r = .next t) : t.len = s.len ∧ SameHostSide s t := by
    obtain ⟨B, -, rfl⟩ := finishBlk_next hf
    simp [SameHostSide]
  cases i with
  | init =>
    obtain ⟨-, rfl⟩ := execInit_next h
    simp [SameHostSide]
  | dblk =>
    obtain ⟨-, rfl⟩ | ⟨-, B, -, rfl⟩ := execDblk_next h <;> simp [SameHostSide]
  | dbuf =>
    obtain ⟨-, rfl⟩ | ⟨-, -, rfl⟩ | ⟨-, -, -, rfl⟩ | ⟨-, -, -, m, -, rfl⟩ := execDbuf_next h <;> simp [SameHostSide]
  | perm => exact finish (r := .ok (permute s.blk)) h
  | subst => exact finish h
  | mixcol c => exact finish h
  | addrk r =>
    obtain ⟨-, rfl⟩ | ⟨-, -, rfl⟩ | ⟨-, -, B, -, rfl⟩ := execAddrk_next h <;> simp [SameHostSide]

/-- What a command can do to the stores: nothing, INIT's schedule, or DBUF's loop over a buffer of a good length. -/
theorem exec_mem {i : Instr} {s t : State} (h : exec i s = .next t) :
    t.mem = s.mem ∨ t.mem = s.mem.writeBytes offSched (initSchedule s).toList ∨
      (badLength s = false ∧ decryptBlocksStep (s.len.toNat / 16) 0 s.mem = .ok t.mem) := by
  have finish {r : Except Fault Block} (hf : finishBlk s r = .next t) : t.mem = s.mem := by
    obtain ⟨B, -, rfl⟩ := finishBlk_next hf
    rfl
  cases i with
  | init =>
    obtain ⟨-, rfl⟩ := execInit_next h
    exact .inr (.inl (by simp))
  | dblk => obtain ⟨-, rfl⟩ | ⟨-, B, -, rfl⟩ := execDblk_next h <;> exact .inl rfl
  | dbuf =>
    obtain ⟨-, rfl⟩ | ⟨-, -, rfl⟩ | ⟨-, -, -, rfl⟩ | ⟨hlen, -, -, m, hm, rfl⟩ := execDbuf_next h
    · exact .inl rfl
    · exact .inl rfl
    · exact .inl rfl
    · exact .inr (.inr ⟨hlen, hm⟩)
  | perm => exact .inl (finish (r := .ok (permute s.blk)) h)
  | subst => exact .inl (finish h)
  | mixcol c => exact .inl (finish h)
  | addrk r => obtain ⟨-, rfl⟩ | ⟨-, -, rfl⟩ | ⟨-, -, B, -, rfl⟩ := execAddrk_next h <;> exact .inl rfl

/-! ## Every step keeps the stores' invariant -/

/-- DBUF's loop writes inside BUF only: its length is at most BUF_BYTES (42_engine_commands.md R108). -/
theorem StoresWf.of_decryptBlocksStep {s t : State} (h : StoresWf s) (hb : t.bufBytes = s.bufBytes)
    (hlen : badLength s = false) (hm : decryptBlocksStep (s.len.toNat / 16) 0 s.mem = .ok t.mem) : StoresWf t := by
  obtain ⟨-, hout, hwf⟩ := decryptBlocksStep_eq_ok _ _ _ _ hm
  have hle : s.len.toNat ≤ s.bufBytes := by
    have := (not_congr (badLength_iff s)).1 (by simp [hlen])
    omega
  refine h.of_new_mem hb (hwf h.1) fun a ha => ?_
  by_cases hin : bufOff (16 * 0) ≤ a ∧ a < bufOff (16 * (0 + s.len.toNat / 16))
  · simp only [bufOff] at hin
    exact .inl (.inr (.inr (by omega)))
  · rw [Memory.written, hout a hin] at ha
    exact .inr ha

theorem exec_keeps_storesWf {i : Instr} {s t : State} (h : StoresWf s) (he : exec i s = .next t) : StoresWf t := by
  obtain ⟨-, -, -, -, hb⟩ := exec_keeps_len_and_hostSide he
  obtain hm | hm | ⟨hlen, hm⟩ := exec_mem he
  · exact h.of_same_mem hm hb
  · refine h.of_writeBytes hm hb fun x hx => .inl ?_
    rwa [Vector.length_toList] at hx
  · exact h.of_decryptBlocksStep hb hlen hm

theorem executeCommand_keeps_storesWf {v : Word} {s t : State} (h : StoresWf s) (he : executeCommand v s = .next t) :
    StoresWf t := by
  obtain ⟨i, -, hi⟩ | ⟨-, rfl⟩ := executeCommand_next he
  · exact exec_keeps_storesWf h hi
  · exact h.of_same_mem rfl rfl

/-- A write to BUF stays inside it because the offset is aligned and BUF_BYTES is a multiple of 16 (R9, 20_memory.md R50). -/
theorem hostWrite_keeps_storesWf {s t : State} {a : Nat} {v : Word} (h : StoresWf s) (h4 : a % 4 = 0)
    (hw : hostWrite s a v = .next t) : StoresWf t := by
  have hlen : (bytesOf v).toList.length = 4 := Vector.length_toList
  obtain ⟨-, hc⟩ | ⟨-, rfl⟩ | ⟨-, -, rfl⟩ | ⟨-, -, rfl⟩ | ⟨-, -, rfl⟩ | ⟨hlo, hhi, rfl⟩ | ⟨hlo, hhi, rfl⟩ |
    ⟨-, -, -, -, -, rfl⟩ := hostWrite_next hw
  · exact executeCommand_keeps_storesWf h hc
  · exact h.of_same_mem rfl rfl
  · exact h.of_same_mem rfl rfl
  · exact h.of_same_mem rfl rfl
  · exact h.of_same_mem rfl rfl
  · refine h.of_writeBytes rfl rfl fun x hx => .inr (.inl ?_)
    simp only [offSbox, offBuf]
    omega
  · have ⟨_, _, _, _, h16⟩ := h
    refine h.of_writeBytes rfl rfl fun x hx => .inr (.inr ?_)
    simp only [offBuf]
    omega
  · exact h

theorem hostEvent_keeps_storesWf {e : HostEvent} {s t : State} (h : StoresWf s) (he : hostEvent e s = .next t) :
    StoresWf t := by
  obtain ⟨-, rfl⟩ | ⟨off, -, -, rfl⟩ | ⟨off, v, -, h4, hw⟩ := hostEvent_next he
  · exact storesWf_of_mem_eq_nil rfl h.2.2
  · exact h.of_same_mem rfl rfl
  · exact hostWrite_keeps_storesWf h h4 hw

/-- Settles O51: the step's inversion lemmas leave the writes to SCHED, SBOX and BUF, each of which stays in its store. -/
theorem stepKeepsStoresWf : Obligations.StepKeepsStoresWf := by
  intro s t h hstep
  obtain ⟨-, rfl⟩ | ⟨e, rest, -, he⟩ := step_next hstep
  · exact h
  · exact hostEvent_keeps_storesWf (h.of_same_mem (t := s.setPending rest) rfl rfl) he

/-- Settles O37, command by command. -/
theorem commandsKeepLenAndHostSide : Obligations.CommandsKeepLenAndHostSide := fun _ _ _ =>
  exec_keeps_len_and_hostSide

/-! ## Commands do not read the host's side (R19) -/

/-- The state with another host's side of the run. -/
def State.withHostSide (s : State) (p : List HostEvent) (l : List Word) (d : Nat) : State :=
  { s with pending := p, readLog := l, draws := d }

/-- An outcome whose next state, where there is one, has another host's side of the run. -/
def outcomeWithHostSide (p : List HostEvent) (l : List Word) (d : Nat) :
    Host.Outcome State Fault Refusal → Host.Outcome State Fault Refusal
  | .next t => .next (t.withHostSide p l d)
  | .fault f => .fault f
  | .refused r => .refused r

section
variable (s : State) (p : List HostEvent) (l : List Word) (d : Nat)

@[simp] theorem State.withHostSide_ready : (s.withHostSide p l d).ready = s.ready := rfl
@[simp] theorem State.withHostSide_len : (s.withHostSide p l d).len = s.len := rfl
@[simp] theorem State.withHostSide_blk : (s.withHostSide p l d).blk = s.blk := rfl
@[simp] theorem State.withHostSide_mem : (s.withHostSide p l d).mem = s.mem := rfl
@[simp] theorem initLookups_withHostSide : initLookups (s.withHostSide p l d) = initLookups s := rfl
@[simp] theorem initSchedule_withHostSide : initSchedule (s.withHostSide p l d) = initSchedule s := rfl
@[simp] theorem badLength_withHostSide : badLength (s.withHostSide p l d) = badLength s := rfl
@[simp] theorem lastBlockStep_withHostSide : lastBlockStep (s.withHostSide p l d) = lastBlockStep s := rfl

theorem finishBlk_withHostSide (r : Except Fault Block) :
    finishBlk (s.withHostSide p l d) r = outcomeWithHostSide p l d (finishBlk s r) := by
  cases r <;> rfl

theorem execInit_withHostSide :
    execInit (s.withHostSide p l d) = outcomeWithHostSide p l d (execInit s) := by
  unfold execInit
  rw [State.withHostSide_mem, initLookups_withHostSide, initSchedule_withHostSide]
  generalize initSchedule s = sched
  cases requireWritten s.mem .unwrittenSbox (initLookups s) <;> rfl

theorem execDblk_withHostSide :
    execDblk (s.withHostSide p l d) = outcomeWithHostSide p l d (execDblk s) := by
  unfold execDblk
  rw [State.withHostSide_ready]
  by_cases hr : s.ready = false
  · rw [if_pos hr, if_pos hr]
    rfl
  · rw [if_neg hr, if_neg hr]
    exact finishBlk_withHostSide s p l d _

theorem dbufDecrypt_withHostSide :
    dbufDecrypt (s.withHostSide p l d) = outcomeWithHostSide p l d (dbufDecrypt s) := by
  unfold dbufDecrypt
  rw [lastBlockStep_withHostSide]
  cases lastBlockStep s with
  | error f => rfl
  | ok B =>
    dsimp only
    rw [State.withHostSide_len, State.withHostSide_mem]
    by_cases hp : badPadding B[15].toNat s.len.toNat = true
    · rw [if_pos hp, if_pos hp]
      rfl
    · rw [if_neg hp, if_neg hp]
      cases decryptBlocksStep (s.len.toNat / 16) 0 s.mem <;> rfl

theorem execDbuf_withHostSide :
    execDbuf (s.withHostSide p l d) = outcomeWithHostSide p l d (execDbuf s) := by
  unfold execDbuf
  rw [badLength_withHostSide, State.withHostSide_ready]
  by_cases hl : badLength s = true
  · rw [if_pos hl, if_pos hl]
    rfl
  · rw [if_neg hl, if_neg hl]
    by_cases hr : s.ready = false
    · rw [if_pos hr, if_pos hr]
      rfl
    · rw [if_neg hr, if_neg hr]
      exact dbufDecrypt_withHostSide s p l d

theorem execAddrk_withHostSide (r : BitVec 4) :
    execAddrk r (s.withHostSide p l d) = outcomeWithHostSide p l d (execAddrk r s) := by
  unfold execAddrk
  rw [State.withHostSide_ready]
  by_cases hl : legalRoundKey r = false
  · rw [if_pos hl, if_pos hl]
    rfl
  · rw [if_neg hl, if_neg hl]
    by_cases hr : s.ready = false
    · rw [if_pos hr, if_pos hr]
      rfl
    · rw [if_neg hr, if_neg hr]
      exact finishBlk_withHostSide s p l d _

/-- Changing the host's side and running a command commute: the command neither reads nor writes it. -/
theorem exec_withHostSide (i : Instr) :
    exec i (s.withHostSide p l d) = outcomeWithHostSide p l d (exec i s) := by
  cases i with
  | init => exact execInit_withHostSide s p l d
  | dblk => exact execDblk_withHostSide s p l d
  | dbuf => exact execDbuf_withHostSide s p l d
  | perm => exact finishBlk_withHostSide s p l d (.ok (permute s.blk))
  | subst => exact finishBlk_withHostSide s p l d _
  | mixcol c => exact finishBlk_withHostSide s p l d _
  | addrk r => exact execAddrk_withHostSide s p l d r

end

/-- Settles O39: a change of the host's side commutes with every command. -/
theorem commandsIgnoreHostSide : Obligations.CommandsIgnoreHostSide := by
  intro i s p l d
  refine (exec_withHostSide s p l d i).trans ?_
  cases exec i s <;> rfl

/-! ## Idle steps and reset -/

/-- A step with no access waiting answers the same state (R18; log entry 2). -/
theorem step_of_pending_nil {s : State} (h : s.pending = []) : step s = .next s := by
  rw [step, nextAccess, h]

/-- Settles O9: there is nothing to take. -/
theorem noAccessNoChange : Obligations.NoAccessNoChange := fun _ => step_of_pending_nil

/-- While READY = 0 nothing is claimed of the schedule (10_state.md R33). -/
theorem readyMeansCurrent_of_not_ready {s : State} (h : s.ready = false) : ReadyMeansCurrent s :=
  fun hr => absurd hr (by simp [h])

/-- Settles O54: reset empties the stores and clears READY and ERR (10_state.md R41). -/
theorem invariantsHoldAtReset : Obligations.InvariantsHoldAtReset :=
  ⟨storesWf_of_mem_eq_nil rfl admissibleSize_configBufBytes, readyMeansCurrent_of_not_ready rfl, Nat.zero_le 4⟩

end Sys2Proof.Machine
end

section
/-! SUPPORT. The engine's state (10_state.md): what each command writes and leaves, the bytes whose being unwritten stops it,
the invariants of READY and ERR, the host's reads and writes, and reset. -/

namespace Sys2Proof.Machine

/-! ## What the commands leave as it was (R36, R42) -/

/-- Every block command either raises an error or puts a block into BLK and succeeds. -/
theorem exec_blockCommand_next {i : Instr} {s t : State} (hi : i ≠ .init) (hd : i ≠ .dbuf) (h : exec i s = .next t) :
    (∃ e, t = s.raise e) ∨ ∃ B, t = (s.setBlk B).succeed := by
  have finish {r : Except Fault Block} (hf : finishBlk s r = .next t) : ∃ B, t = (s.setBlk B).succeed :=
    (finishBlk_next hf).imp fun _ hB => hB.2
  cases i with
  | init => exact absurd rfl hi
  | dbuf => exact absurd rfl hd
  | dblk =>
    obtain ⟨-, rfl⟩ | ⟨-, B, -, rfl⟩ := execDblk_next h
    · exact .inl ⟨_, rfl⟩
    · exact .inr ⟨B, rfl⟩
  | perm => exact .inr (finish (r := .ok (permute s.blk)) h)
  | subst => exact .inr (finish h)
  | mixcol c => exact .inr (finish h)
  | addrk r =>
    obtain ⟨-, rfl⟩ | ⟨-, -, rfl⟩ | ⟨-, -, B, -, rfl⟩ := execAddrk_next h
    · exact .inl ⟨_, rfl⟩
    · exact .inl ⟨_, rfl⟩
    · exact .inr ⟨B, rfl⟩

/-- DBUF either raises an error, or succeeds with a good length and a good pad length and has then written inside
`BUF[0..LEN)` only (42_engine_commands.md R112). -/
theorem execDbuf_outcome {s t : State} (h : exec .dbuf s = .next t) :
    (∃ e, e ≠ .ok ∧ t = s.raiseDbuf e) ∨
      ∃ m n, badPadding (padLength s) s.len.toNat = false ∧ n = BitVec.ofNat 32 (s.len.toNat - padLength s) ∧
        (∀ a, ¬ (bufOff 0 ≤ a ∧ a < bufOff s.len.toNat) → m.read a = s.mem.read a) ∧
        t = ((s.setMem m).setOutLen n).succeed := by
  obtain ⟨-, rfl⟩ | ⟨-, -, rfl⟩ | ⟨-, -, -, rfl⟩ | ⟨hlen, -, hpad, m, hm, rfl⟩ := execDbuf_next h
  · exact .inl ⟨_, by decide, rfl⟩
  · exact .inl ⟨_, by decide, rfl⟩
  · exact .inl ⟨_, by decide, rfl⟩
  · obtain ⟨-, hout, -⟩ := decryptBlocksStep_eq_ok _ _ _ _ hm
    have h16 := (not_congr (badLength_iff s)).1 (by simp [hlen])
    rw [show 16 * (0 + s.len.toNat / 16) = s.len.toNat by omega] at hout
    exact .inr ⟨m, _, hpad, rfl, hout, rfl⟩

/-- Only INIT writes below BUF or changes READY, and no command writes KEY or MIXV. -/
theorem exec_frame_of_ne_init {i : Instr} {s t : State} (hi : i ≠ .init) (h : exec i s = .next t) :
    t.ready = s.ready ∧ t.key = s.key ∧ t.mixv = s.mixv ∧ ∀ a, a < offBuf → t.mem.read a = s.mem.read a := by
  by_cases hd : i = .dbuf
  · subst hd
    obtain ⟨e, -, rfl⟩ | ⟨m, n, -, -, hout, rfl⟩ := execDbuf_outcome h
    · exact ⟨rfl, rfl, rfl, fun _ _ => rfl⟩
    · exact ⟨rfl, rfl, rfl, fun a ha => hout a (by simp only [bufOff]; omega)⟩
  · obtain ⟨e, rfl⟩ | ⟨B, rfl⟩ := exec_blockCommand_next hi hd h
    · exact ⟨rfl, rfl, rfl, fun _ _ => rfl⟩
    · exact ⟨rfl, rfl, rfl, fun _ _ => rfl⟩

theorem ErrCode.code_le (e : ErrCode) : e.code.toNat ≤ 4 := by
  cases e <;> decide

theorem ErrCode.code_ne_zero {e : ErrCode} (h : e ≠ .ok) : e.code ≠ 0#4 := by
  cases e with
  | ok => exact absurd rfl h
  | notInitialized => decide
  | invalidBlockLength => decide
  | invalidPadding => decide
  | illegalCommand => decide

/-- Every command that answers leaves one of the codes of 60_exceptions.md R116 in ERR. -/
theorem exec_errDefined {i : Instr} {s t : State} (h : exec i s = .next t) : ErrDefined t := by
  by_cases hi : i = .init
  · subst hi
    obtain ⟨-, rfl⟩ := execInit_next h
    exact ErrCode.code_le .ok
  by_cases hd : i = .dbuf
  · subst hd
    obtain ⟨e, -, rfl⟩ | ⟨m, n, -, -, -, rfl⟩ := execDbuf_outcome h
    · exact e.code_le
    · exact ErrCode.code_le .ok
  · obtain ⟨e, rfl⟩ | ⟨B, rfl⟩ := exec_blockCommand_next hi hd h
    · exact e.code_le
    · exact ErrCode.code_le .ok

/-! ## INIT (40_key_schedule.md R85) -/

/-- A whole schedule written at SCHED reads back. -/
theorem read_writeSched_inside (m : Memory) (K : Vector Byte 176) (k : Fin 176) :
    (m.writeBytes offSched K.toList).read (schedOff k.val) = some K[k] := by
  have hk : k.val < K.toList.length := by rw [Vector.length_toList]; exact k.isLt
  exact (Memory.read_writeBytes_inside m offSched k.val K.toList hk).trans (by simp)

/-- A schedule written at SCHED leaves every other byte. -/
theorem read_writeSched_outside (m : Memory) (K : Vector Byte 176) {a : Nat} (h : ¬ (0x100 ≤ a ∧ a < 0x100 + 176)) :
    (m.writeBytes offSched K.toList).read a = m.read a := by
  apply Memory.read_writeBytes_outside
  rw [Vector.length_toList, offSched]
  omega

/-- Table 8 lies at 0xF00 and up (20_memory.md R46). -/
theorem Memory.sbox_eight (m : Memory) : m.sbox 8 = fun x => (m.read (0xF00 + x.toNat)).getD 0#8 := by
  funext x
  rw [Memory.sbox, show sboxOff 8 x = 0xF00 + x.toNat from rfl]

theorem initSchedule_eq (s : State) :
    initSchedule s = expand s.key (fun x => (s.mem.read (0xF00 + x.toNat)).getD 0#8) s.mixv := by
  rw [initSchedule, Memory.sbox_eight]

/-- What INIT does with the schedule it has computed, as a record update. -/
theorem State.scheduleWritten_eq (s : State) (m : Memory) :
    ((s.setMem m).scheduleValid).succeed = { s with mem := m, ready := true, err := 0#4 } := rfl

/-- Everything INIT can answer, as a record update. -/
theorem execInit_next_eq {s t : State} (h : exec .init s = .next t) :
    (∀ a ∈ initLookups s, s.mem.written a = true) ∧
      ∃ K, K = initSchedule s ∧ t = { s with mem := s.mem.writeBytes offSched K.toList, ready := true, err := 0#4 } := by
  obtain ⟨hwritten, ht⟩ := execInit_next h
  exact ⟨hwritten, _, rfl, ht.trans (State.scheduleWritten_eq s _)⟩

/-- INIT keeps every register but READY and ERR, and every byte outside SCHED. -/
theorem execInit_frame {s t : State} (h : exec .init s = .next t) :
    t = { s with mem := t.mem, ready := true, err := 0#4 } ∧
      ∀ a, ¬ (0x100 ≤ a ∧ a < 0x100 + 176) → t.mem.read a = s.mem.read a := by
  obtain ⟨-, K, -, rfl⟩ := execInit_next_eq h
  exact ⟨rfl, fun a ha => read_writeSched_outside s.mem K ha⟩

/-- Settles O10: the schedule INIT writes is the expansion, and the rest is INIT's frame. -/
theorem initWritesExpandedSchedule : Obligations.InitWritesExpandedSchedule := by
  intro s hw
  have h : exec .init s = .next _ := execInit_of_written hw
  obtain ⟨heq, hout⟩ := execInit_frame h
  obtain ⟨-, K, hK, ht⟩ := execInit_next_eq h
  refine ⟨_, h, fun k => ?_, hout, heq⟩
  rw [ht, ← initSchedule_eq, ← hK]
  exact read_writeSched_inside s.mem K k

/-- Settles O14: INIT's frame, field by field. -/
theorem initFrame : Obligations.InitFrame := by
  intro s t h
  obtain ⟨heq, hout⟩ := execInit_frame h
  rw [heq]
  exact ⟨rfl, rfl, rfl, rfl, rfl, ⟨rfl, rfl, rfl, rfl⟩, hout⟩

/-! ## The frames of the other commands -/

/-- Settles O21: a block command raises an error or answers with a new BLK. -/
theorem blockCommandsFrame : Obligations.BlockCommandsFrame := by
  intro i s t hi hd h
  obtain ⟨e, rfl⟩ | ⟨B, rfl⟩ := exec_blockCommand_next hi hd h
  · exact ⟨rfl, fun _ => rfl⟩
  · exact ⟨rfl, fun _ => rfl⟩

/-- Settles O32: a failing DBUF writes ERR and OUT_LEN, a succeeding one `BUF[0..LEN)` too. -/
theorem dbufFrame : Obligations.DbufFrame := by
  intro s t h
  obtain ⟨e, -, rfl⟩ | ⟨m, n, -, -, hout, rfl⟩ := execDbuf_outcome h
  · exact ⟨rfl, fun _ _ => rfl, fun _ _ => rfl⟩
  · exact ⟨rfl, hout, fun herr => absurd rfl herr⟩

/-- Settles O31: a good pad length lies in 1..16 and is at most LEN, so `LEN − n` does not wrap (R111, R115). -/
theorem dbufOutLenInBounds : Obligations.DbufOutLenInBounds := by
  intro s t h
  obtain ⟨e, he, rfl⟩ | ⟨m, n, hpad, rfl, -, rfl⟩ := execDbuf_outcome h
  · exact ⟨fun herr => absurd herr (ErrCode.code_ne_zero he), fun _ => rfl⟩
  · refine ⟨fun _ => ?_, fun herr => absurd rfl herr⟩
    simp only [badPadding, Bool.or_eq_false_iff, decide_eq_false_iff_not] at hpad
    have hlt := s.len.isLt
    simp only [State.succeed_outLen, State.setOutLen_outLen, BitVec.toNat_ofNat]
    omega

/-- Settles O36: INIT writes SCHED, which lies below the tables, and no other command writes below BUF. -/
theorem noCommandWritesConfiguration : Obligations.NoCommandWritesConfiguration := by
  intro i s t h
  by_cases hi : i = .init
  · subst hi
    obtain ⟨heq, hout⟩ := execInit_frame h
    refine ⟨by rw [heq], by rw [heq], fun a hlo _ => hout a ?_⟩
    simp only [offSbox] at hlo
    omega
  · obtain ⟨-, hkey, hmixv, hmem⟩ := exec_frame_of_ne_init hi h
    exact ⟨hkey, hmixv, fun a _ hhi => hmem a hhi⟩

/-! ## READY and the schedule (R24, R33) -/

theorem exists_of_mem_initLookups {s : State} {a : Nat} (h : a ∈ initLookups s) : ∃ x, a = sboxOff 8 x := by
  obtain ⟨x, -, rfl⟩ := List.mem_map.1 h
  exact ⟨x, rfl⟩

/-- What INIT looks up and computes depends on KEY, MIXV and table 8 only. -/
theorem initSchedule_congr {s t : State} (hkey : t.key = s.key) (hmixv : t.mixv = s.mixv)
    (h8 : ∀ x, t.mem.read (sboxOff 8 x) = s.mem.read (sboxOff 8 x)) :
    initLookups t = initLookups s ∧ initSchedule t = initSchedule s := by
  have htab : t.mem.sbox 8 = s.mem.sbox 8 := funext fun x => Memory.sbox_congr (h8 x)
  simp only [initLookups, initSchedule, hkey, hmixv, htab, and_self]

/-- A current schedule stays current while KEY, MIXV and the stores below BUF keep. -/
theorem ScheduleCurrent.congr {s t : State} (h : ScheduleCurrent s) (hkey : t.key = s.key) (hmixv : t.mixv = s.mixv)
    (hmem : ∀ a, a < offBuf → t.mem.read a = s.mem.read a) : ScheduleCurrent t := by
  have h8 : ∀ x, t.mem.read (sboxOff 8 x) = s.mem.read (sboxOff 8 x) := fun x => hmem _ (sboxOff_lt x (by decide))
  obtain ⟨hl, hs⟩ := initSchedule_congr hkey hmixv h8
  obtain ⟨hwritten, hread⟩ := h
  refine ⟨fun a ha => ?_, fun k => ?_⟩
  · rw [hl] at ha
    obtain ⟨x, rfl⟩ := exists_of_mem_initLookups ha
    rw [Memory.written, h8]
    exact hwritten _ ha
  · rw [hmem _ (by simp only [schedOff, offSched, offBuf]; omega), hs]
    exact hread k

/-- INIT leaves a current schedule: it writes what it computes from configuration that it does not write. -/
theorem execInit_scheduleCurrent {s t : State} (h : exec .init s = .next t) : ScheduleCurrent t := by
  obtain ⟨hwritten, K, hK, rfl⟩ := execInit_next_eq h
  have h8 (x : Byte) : (s.mem.writeBytes offSched K.toList).read (sboxOff 8 x) = s.mem.read (sboxOff 8 x) := by
    have := sboxOff_ge 8 x
    exact read_writeSched_outside _ _ (by simp only [offSbox] at this; omega)
  obtain ⟨hl, hs⟩ := initSchedule_congr (s := s)
    (t := { s with mem := s.mem.writeBytes offSched K.toList, ready := true, err := 0#4 }) rfl rfl h8
  refine ⟨fun a ha => ?_, fun k => ?_⟩
  · rw [hl] at ha
    obtain ⟨x, rfl⟩ := exists_of_mem_initLookups ha
    exact (congrArg Option.isSome (h8 x)).trans (hwritten _ ha)
  · rw [hs, ← hK]
    exact read_writeSched_inside s.mem K k

/-- The claim of R33 carries over to a state with the same READY, KEY, MIXV and stores below BUF. -/
theorem ReadyMeansCurrent.congr {s t : State} (h : ReadyMeansCurrent s) (hready : t.ready = s.ready) (hkey : t.key = s.key)
    (hmixv : t.mixv = s.mixv) (hmem : ∀ a, a < offBuf → t.mem.read a = s.mem.read a) : ReadyMeansCurrent t :=
  fun ht => (h (hready.symm.trans ht)).congr hkey hmixv hmem

theorem ReadyMeansCurrent.of_same {s t : State} (h : ReadyMeansCurrent s)
    (hsame : t.ready = s.ready ∧ t.key = s.key ∧ t.mixv = s.mixv ∧ t.mem = s.mem) : ReadyMeansCurrent t := by
  obtain ⟨hready, hkey, hmixv, hmem⟩ := hsame
  exact h.congr hready hkey hmixv fun a _ => by rw [hmem]

theorem exec_keeps_readyMeansCurrent {i : Instr} {s t : State} (h : ReadyMeansCurrent s) (he : exec i s = .next t) :
    ReadyMeansCurrent t := by
  by_cases hi : i = .init
  · subst hi
    exact fun _ => execInit_scheduleCurrent he
  · obtain ⟨hready, hkey, hmixv, hmem⟩ := exec_frame_of_ne_init hi he
    exact h.congr hready hkey hmixv hmem

theorem executeCommand_keeps_readyMeansCurrent {v : Word} {s t : State} (h : ReadyMeansCurrent s)
    (he : executeCommand v s = .next t) : ReadyMeansCurrent t := by
  obtain ⟨i, -, hi⟩ | ⟨-, rfl⟩ := executeCommand_next he
  · exact exec_keeps_readyMeansCurrent h hi
  · exact h.of_same (by simp)

/-- The writes that touch what the schedule is computed from clear READY (R24); a BUF write lies above it. -/
theorem hostWrite_keeps_readyMeansCurrent {s t : State} {a : Nat} {v : Word} (h : ReadyMeansCurrent s)
    (hw : hostWrite s a v = .next t) : ReadyMeansCurrent t := by
  obtain ⟨-, hc⟩ | ⟨-, rfl⟩ | ⟨-, -, rfl⟩ | ⟨-, -, rfl⟩ | ⟨-, -, rfl⟩ | ⟨-, -, rfl⟩ | ⟨hlo, -, rfl⟩ |
    ⟨-, -, -, -, -, rfl⟩ := hostWrite_next hw
  · exact executeCommand_keeps_readyMeansCurrent h hc
  · exact h.of_same (by simp)
  · exact readyMeansCurrent_of_not_ready rfl
  · exact readyMeansCurrent_of_not_ready rfl
  · exact h.of_same (by simp)
  · exact readyMeansCurrent_of_not_ready rfl
  · refine h.congr rfl rfl rfl fun x hx => ?_
    rw [State.setMem_mem, read_writeWord, if_neg (by simp only [offBuf] at hx; omega)]
  · exact h

/-- Settles O52: INIT makes the schedule current, configuration writes and reset clear READY, and nothing else changes what
the schedule is computed from. -/
theorem stepKeepsScheduleCurrent : Obligations.StepKeepsScheduleCurrent := by
  intro s t h hstep
  obtain ⟨-, rfl⟩ | ⟨e, rest, -, he⟩ := step_next hstep
  · exact h
  obtain ⟨-, rfl⟩ | ⟨off, -, -, rfl⟩ | ⟨off, v, -, -, hw⟩ := hostEvent_next he
  · exact readyMeansCurrent_of_not_ready rfl
  · exact h.of_same (by simp)
  · exact hostWrite_keeps_readyMeansCurrent (h.of_same (by simp)) hw

/-! ## ERR (R25) -/

theorem executeCommand_errDefined {v : Word} {s t : State} (he : executeCommand v s = .next t) : ErrDefined t := by
  obtain ⟨i, -, hi⟩ | ⟨-, rfl⟩ := executeCommand_next he
  · exact exec_errDefined hi
  · exact ErrCode.code_le .illegalCommand

/-- A host write keeps ERR unless it is to CMD. -/
theorem hostWrite_err {s t : State} {a : Nat} {v : Word} (hw : hostWrite s a v = .next t) :
    (a = 0 ∧ executeCommand v s = .next t) ∨ t.err = s.err := by
  obtain hc | ⟨-, rfl⟩ | ⟨-, -, rfl⟩ | ⟨-, -, rfl⟩ | ⟨-, -, rfl⟩ | ⟨-, -, rfl⟩ | ⟨-, -, rfl⟩ | ⟨-, -, -, -, -, rfl⟩ :=
    hostWrite_next hw
  · exact .inl hc
  all_goals exact .inr (by simp)

/-- Everything a step can do to ERR: keep it, clear it by reset, or run a command. -/
theorem hostEvent_err {e : HostEvent} {s t : State} (h : hostEvent e s = .next t) :
    (e = .reset ∧ t.err = 0#4) ∨ (∃ v, e = .write 32 0x000#32 v ∧ executeCommand v s = .next t) ∨ t.err = s.err := by
  obtain ⟨he, rfl⟩ | ⟨off, -, -, rfl⟩ | ⟨off, v, he, -, hw⟩ := hostEvent_next h
  · exact .inl ⟨he, rfl⟩
  · exact .inr (.inr rfl)
  · obtain ⟨hoff, hc⟩ | hkeep := hostWrite_err hw
    · obtain rfl : off = 0x000#32 := BitVec.eq_of_toNat_eq hoff
      exact .inr (.inl ⟨v, he, hc⟩)
    · exact .inr (.inr hkeep)

/-- Settles O53: a command leaves a defined code, reset leaves 0, and nothing else writes ERR. -/
theorem stepKeepsErrDefined : Obligations.StepKeepsErrDefined := by
  intro s t h hstep
  obtain ⟨-, rfl⟩ | ⟨e, rest, -, he⟩ := step_next hstep
  · exact h
  obtain ⟨-, herr⟩ | ⟨v, -, hc⟩ | herr := hostEvent_err he
  · rw [ErrDefined, herr]
    decide
  · exact executeCommand_errDefined hc
  · rwa [ErrDefined, herr]

/-- A step with an access waiting carries that access out. -/
theorem hostEvent_of_step_next {s t : State} {e : HostEvent} {rest : List HostEvent} (hp : s.pending = e :: rest)
    (h : step s = .next t) : hostEvent e (s.setPending rest) = .next t := by
  rwa [step, nextAccess, hp] at h

/-- Settles O48: what is left of an event that can change ERR is a CMD write or reset. -/
theorem onlyCommandsAndResetWriteErr : Obligations.OnlyCommandsAndResetWriteErr := by
  intro s t e rest hp hstep hreset hcmd
  obtain ⟨he, -⟩ | ⟨v, he, -⟩ | hkeep := hostEvent_err (hostEvent_of_step_next hp hstep)
  · exact absurd he hreset
  · exact absurd he (hcmd v)
  · exact hkeep

/-! ## The readiness state machine (R24, 70_reset_and_hazards.md R139) -/

/-- A command without operand decodes only with ARG = 0 (30_encoding.md R68). -/
theorem decodeNoArg_eq_ok {v : Word} {i j : Instr} : decodeNoArg v i = .ok j ↔ argField v = 0#4 ∧ i = j := by
  unfold decodeNoArg
  split <;> simp [*]

theorem decodeMixcol_ne_init (v : Word) : decodeMixcol v ≠ .ok .init := by
  unfold decodeMixcol
  split <;> simp

theorem decodeAddrk_ne_init (v : Word) : decodeAddrk v ≠ .ok .init := by
  unfold decodeAddrk
  split <;> simp

/-- The fields of INIT's word (R69). -/
theorem decode_eq_init_iff_fields (v : Word) :
    decode v = .ok .init ↔ rsvField v = 0#20 ∧ opField v = 0x01#8 ∧ argField v = 0#4 := by
  unfold decode
  by_cases hrsv : rsvField v = 0#20
  · by_cases hop : opField v = 0x01#8
    · simp [hrsv, hop, decodeNoArg_eq_ok]
    · simp [hrsv, hop, apply_ite (· = Except.ok Instr.init), decodeNoArg_eq_ok, decodeMixcol_ne_init, decodeAddrk_ne_init]
  · simp [hrsv]

/-- The word of INIT is 0x00000001, and no other word decodes to it (30_encoding.md R69). -/
theorem decode_eq_init_iff (v : Word) : decode v = .ok .init ↔ v = 0x00000001#32 := by
  rw [decode_eq_init_iff_fields]
  constructor
  · rintro ⟨hrsv, hop, harg⟩
    have hrsv := congrArg BitVec.toNat hrsv
    have hop := congrArg BitVec.toNat hop
    have harg := congrArg BitVec.toNat harg
    simp only [rsvField, opField, argField, BitVec.extractLsb'_toNat, BitVec.toNat_ofNat, Nat.shiftRight_eq_div_pow]
      at hrsv hop harg
    have hlt := v.isLt
    apply BitVec.eq_of_toNat_eq
    rw [BitVec.toNat_ofNat]
    omega
  · rintro rfl
    decide

/-- Everything ExecuteCommand can do to READY: INIT sets it, every other word keeps it. -/
theorem executeCommand_ready {v : Word} {s t : State} (h : executeCommand v s = .next t) :
    t.ready = if v = 0x00000001#32 then true else s.ready := by
  obtain ⟨i, hd, hi⟩ | ⟨⟨e, hd⟩, rfl⟩ := executeCommand_next h
  · by_cases hinit : i = .init
    · subst hinit
      rw [if_pos ((decode_eq_init_iff v).1 hd), (execInit_frame hi).1]
    · have hv : v ≠ 0x00000001#32 := fun e =>
        hinit (Except.ok.inj (hd.symm.trans ((decode_eq_init_iff v).2 e)))
      rw [if_neg hv, (exec_frame_of_ne_init hinit hi).1]
  · have hv : v ≠ 0x00000001#32 := fun e => by
      rw [(decode_eq_init_iff v).2 e] at hd
      cases hd
    rw [if_neg hv, State.raise_ready]

/-- Everything an aligned host write can do to READY. -/
theorem hostWrite_ready {s t : State} {a : Nat} {v : Word} (h4 : a % 4 = 0) (h : hostWrite s a v = .next t) :
    t.ready =
      if a = 0x000 then (if v = 0x00000001#32 then true else s.ready)
      else if (0x010 ≤ a ∧ a < 0x02C) ∨ (0x800 ≤ a ∧ a < 0x1000) then false
      else s.ready := by
  obtain ⟨ha, hc⟩ | ⟨ha, rfl⟩ | ⟨hlo, hhi, rfl⟩ | ⟨hlo, hhi, rfl⟩ | ⟨hlo, hhi, rfl⟩ | ⟨hlo, hhi, rfl⟩ | ⟨hlo, hhi, rfl⟩ |
    ⟨h0, h8, hk, hm, hs, rfl⟩ := hostWrite_next h
  · rw [if_pos ha, executeCommand_ready hc]
  · rw [if_neg (by omega), if_neg (by omega), State.setLen_ready]
  · rw [if_neg (by omega), if_pos (by omega), State.configWritten_ready]
  · rw [if_neg (by omega), if_pos (by omega), State.configWritten_ready]
  · rw [if_neg (by omega), if_neg (by omega), State.setBlk_ready]
  · rw [if_neg (by omega), if_pos (by omega), State.configWritten_ready]
  · rw [if_neg (by omega), if_neg (by omega), State.setMem_ready]
  · rw [if_neg h0, if_neg (by omega)]

/-- Settles O47: the writes by region, a read that keeps READY, and reset. -/
theorem readinessStateMachine : Obligations.ReadinessStateMachine := by
  intro s t e rest hp hstep
  obtain ⟨rfl, rfl⟩ | ⟨off, rfl, -, rfl⟩ | ⟨off, v, rfl, h4, hw⟩ := hostEvent_next (hostEvent_of_step_next hp hstep)
  · rfl
  · rfl
  · exact hostWrite_ready (s := s.setPending rest) h4 hw

/-! ## Unwritten bytes (R40): what the commands that read tables, SCHED and BUF answer -/

theorem Answers.of_error {α : Type} {m : Memory} {R : Nat → Prop} {v : α} {r : Except Fault α} {f : Fault}
    (h : Answers m R v r) (hr : r = .error f) : ∃ a, R a ∧ m.read a = none ∧ f = unwrittenFault a := by
  obtain ⟨-, rfl⟩ | ⟨a, ha, hn, rfl⟩ := h
  · cases hr
  · exact ⟨a, ha, hn, (Except.error.inj hr).symm⟩

/-- A command that puts a checked block into BLK completes when every byte it reads is written. -/
theorem finishBlk_of_written {s : State} {R : Nat → Prop} {B : Block} {r : Except Fault Block}
    (h : Answers s.mem R B r) (hw : ∀ a, R a → s.mem.written a = true) :
    finishBlk s r = .next { s with blk := B, err := 0#4 } := by
  rw [h.of_written hw]
  rfl

/-- It stops with the fault of a byte that it reads where one is unwritten. -/
theorem finishBlk_of_unwritten {s : State} {R : Nat → Prop} {B : Block} {r : Except Fault Block}
    (h : Answers s.mem R B r) (hn : ∃ a, R a ∧ s.mem.read a = none) :
    ∃ a, R a ∧ s.mem.read a = none ∧ finishBlk s r = .fault (unwrittenFault a) := by
  obtain ⟨a, ha, hn, rfl⟩ := h.of_unwritten hn
  exact ⟨a, ha, hn, rfl⟩

/-- And it stops for no other reason. -/
theorem finishBlk_fault {s : State} {R : Nat → Prop} {B : Block} {r : Except Fault Block} {f : Fault}
    (h : Answers s.mem R B r) (hf : finishBlk s r = .fault f) :
    ∃ a, R a ∧ s.mem.read a = none ∧ f = unwrittenFault a := by
  cases r with
  | ok C => cases hf
  | error g =>
    obtain rfl : g = f := Host.Outcome.fault.inj hf
    exact h.of_error rfl

theorem exec_dblk_of_ready {s : State} (h : s.ready = true) :
    exec .dblk s = finishBlk s (decryptBlockStep s.mem s.blk) := by
  rw [exec, execDblk, if_neg (by simp [h])]

theorem exec_addrk_of_ready {s : State} {r : BitVec 4} (hr : r.toNat ≤ 10) (h : s.ready = true) :
    exec (.addrk r) s = finishBlk s (addRoundKeyStep s.mem r.toNat s.blk) := by
  rw [exec, execAddrk, if_neg (by simp [(legalRoundKey_iff r).2 hr]), if_neg (by simp [h])]

theorem badLength_eq_false {s : State} (h0 : 0 < s.len.toNat) (h16 : s.len.toNat % 16 = 0) (hle : s.len.toNat ≤ s.bufBytes) :
    badLength s = false := by
  rw [Bool.eq_false_iff, ne_eq, badLength_iff]
  omega

theorem exec_dbuf_of_ready {s : State} (hlen : badLength s = false) (h : s.ready = true) :
    exec .dbuf s = dbufDecrypt s := by
  rw [exec, execDbuf, if_neg (by simp [hlen]), if_neg (by simp [h])]

theorem unwrittenFault_of_sbox {a : Nat} (hlo : 0x800 ≤ a) (hhi : a < 0x1000) : unwrittenFault a = .unwrittenSbox a := by
  rw [unwrittenFault, if_neg (by omega), if_pos hhi]

theorem unwrittenFault_of_sched {a : Nat} (h : a < 0x800) : unwrittenFault a = .unwrittenSched a := by
  rw [unwrittenFault, if_pos h]

theorem substituteReads_range {B : Block} {a : Nat} (h : SubstituteReads B a) : 0x800 ≤ a ∧ a < 0x1000 := by
  obtain ⟨i, rfl⟩ := h
  have := B[i].isLt
  omega

theorem mixColumnReads_range {c : Fin 4} {B : Block} {a : Nat} (h : MixColumnReads c B a) : 0x800 ≤ a ∧ a < 0x1000 := by
  obtain ⟨i, -, t, h1, h4, rfl⟩ := h
  have := B[i].isLt
  omega

theorem roundKeyReads_range {r a : Nat} (hr : r ≤ 10) (h : RoundKeyReads r a) : 0x100 ≤ a ∧ a < 0x1B0 := by
  obtain ⟨i, rfl⟩ := h
  omega

/-! ### The pre-check and the loop of DBUF -/

section
variable {s : State}

theorem dbufDecrypt_of_lastBlock_error {f : Fault} (h : lastBlockStep s = .error f) : dbufDecrypt s = .fault f := by
  rw [dbufDecrypt, h]

theorem lastByte_eq_padLength :
    (decryptedBlock s.mem (bufBlock s.mem (s.len.toNat - 16)))[15].toNat = padLength s := rfl

variable (hlast : lastBlockStep s = .ok (decryptedBlock s.mem (bufBlock s.mem (s.len.toNat - 16))))
include hlast

theorem dbufDecrypt_of_badPadding (hp : badPadding (padLength s) s.len.toNat = true) :
    dbufDecrypt s = .next { s with outLen := 0#32, err := 3#4 } := by
  simp only [dbufDecrypt, hlast, lastByte_eq_padLength, hp, if_true, State.raiseDbuf_eq, ErrCode.code]

theorem dbufDecrypt_of_loop_error (hp : badPadding (padLength s) s.len.toNat = false) {f : Fault}
    (hloop : decryptBlocksStep (s.len.toNat / 16) 0 s.mem = .error f) : dbufDecrypt s = .fault f := by
  simp only [dbufDecrypt, hlast, lastByte_eq_padLength, hp, hloop, Bool.false_eq_true, if_false]

theorem dbufDecrypt_of_loop_ok (hp : badPadding (padLength s) s.len.toNat = false) {m : Memory}
    (hloop : decryptBlocksStep (s.len.toNat / 16) 0 s.mem = .ok m) :
    dbufDecrypt s =
      .next ((s.setMem m).setOutLen (BitVec.ofNat 32 (s.len.toNat - padLength s))).succeed := by
  simp only [dbufDecrypt, hlast, lastByte_eq_padLength, hp, hloop, Bool.false_eq_true, if_false]

end

/-- Everything DBUF's decryption can stop with: an unwritten byte that the decryption of some block reads. -/
theorem dbufDecrypt_fault {s : State} {f : Fault} (h : dbufDecrypt s = .fault f) :
    ∃ b a, BufBlockReads s.mem b a ∧ s.mem.read a = none ∧ f = unwrittenFault a := by
  have hans := lastBlockStep_answers s
  cases hlast : lastBlockStep s with
  | error g =>
    obtain rfl : g = f := Host.Outcome.fault.inj ((dbufDecrypt_of_lastBlock_error hlast).symm.trans h)
    exact ⟨_, hans.of_error hlast⟩
  | ok B =>
    obtain ⟨-, rfl⟩ := hans.of_ok hlast
    cases hp : badPadding (padLength s) s.len.toNat with
    | true =>
      rw [dbufDecrypt_of_badPadding hlast hp] at h
      cases h
    | false =>
      obtain ⟨n, hn⟩ := decryptBlocksStep_answers (s.len.toNat / 16) 0 s.mem
      cases hloop : decryptBlocksStep (s.len.toNat / 16) 0 s.mem with
      | error g =>
        obtain rfl : g = f := Host.Outcome.fault.inj ((dbufDecrypt_of_loop_error hlast hp hloop).symm.trans h)
        obtain ⟨a, ⟨k, -, -, ha⟩, hnone, e⟩ := hn.of_error hloop
        exact ⟨_, a, ha, hnone, e⟩
      | ok m =>
        rw [dbufDecrypt_of_loop_ok hlast hp hloop] at h
        cases h

/-! ### Which bytes of SCHED a command can stop at -/

theorem decryptRoundsReads_range {S : Nat → Byte → Byte} {K : Nat → Byte} {a : Nat} : ∀ (r : Nat) (B : Block), r ≤ 10 →
    DecryptRoundsReads S K r B a → (0x100 ≤ a ∧ a < 0x1B0) ∨ 0x800 ≤ a := by
  intro r
  induction r with
  | zero =>
    rintro B hr (h | h)
    · exact .inr (substituteReads_range h).1
    · exact .inl (roundKeyReads_range hr h)
  | succ r ih =>
    rintro B hr (h | h | ⟨c, h⟩ | h)
    · exact .inr (substituteReads_range h).1
    · exact .inl (roundKeyReads_range hr h)
    · exact .inr (mixColumnReads_range h).1
    · exact ih _ (by omega) h

/-- A decryption reads SCHED and bytes from the tables up. -/
theorem decryptReads_range {m : Memory} {B : Block} {a : Nat} (h : DecryptReads m B a) :
    (0x100 ≤ a ∧ a < 0x1B0) ∨ 0x800 ≤ a :=
  h.elim (fun h => .inl (roundKeyReads_range (by decide) h)) (decryptRoundsReads_range _ _ (by decide))

theorem bufBlockReads_range {m : Memory} {b a : Nat} (h : BufBlockReads m b a) : (0x100 ≤ a ∧ a < 0x1B0) ∨ 0x800 ≤ a :=
  h.elim (fun h => .inr (by omega)) decryptReads_range

/-- Everything a command can stop with: an unwritten byte that it reads, which lies in SCHED only if READY = 1, and else in
the tables or BUF. -/
theorem exec_fault {i : Instr} {s : State} {f : Fault} (h : exec i s = .fault f) :
    ∃ a, s.mem.read a = none ∧ f = unwrittenFault a ∧ ((s.ready = true ∧ 0x100 ≤ a ∧ a < 0x1B0) ∨ 0x800 ≤ a) := by
  cases i with
  | init =>
    obtain ⟨-, e⟩ | ⟨a, ha, hn, e⟩ := requireWritten_cases s.mem .unwrittenSbox (initLookups s)
    · rw [exec, execInit, e] at h
      cases h
    · rw [exec, execInit, e] at h
      obtain ⟨x, rfl⟩ := exists_of_mem_initLookups ha
      exact ⟨_, hn, (Host.Outcome.fault.inj h).symm.trans (unwrittenFault_sbox x (by decide)), .inr (sboxOff_ge 8 x)⟩
  | dblk =>
    cases hr : s.ready with
    | false =>
      rw [exec, execDblk, if_pos hr] at h
      cases h
    | true =>
      obtain ⟨a, ha, hn, e⟩ := finishBlk_fault (decryptBlockStep_answers _ _) ((exec_dblk_of_ready hr).symm.trans h)
      exact ⟨a, hn, e, (decryptReads_range ha).imp_left fun ha => ⟨rfl, ha⟩⟩
  | dbuf =>
    rw [exec, execDbuf] at h
    split at h
    · cases h
    split at h
    · cases h
    · rename_i hr
      obtain ⟨b, a, ha, hn, e⟩ := dbufDecrypt_fault h
      exact ⟨a, hn, e, (bufBlockReads_range ha).imp_left fun ha => ⟨by simpa using hr, ha⟩⟩
  | perm => cases h
  | subst =>
    obtain ⟨a, ha, hn, e⟩ := finishBlk_fault (substituteStep_answers _ _) h
    exact ⟨a, hn, e, .inr (substituteReads_range ha).1⟩
  | mixcol c =>
    obtain ⟨a, ha, hn, e⟩ := finishBlk_fault (mixColumnStep_answers _ _ _) h
    exact ⟨a, hn, e, .inr (mixColumnReads_range ha).1⟩
  | addrk r =>
    rw [exec, execAddrk] at h
    split at h
    · cases h
    split at h
    · cases h
    · rename_i hl hr
      have hle : r.toNat ≤ 10 := (legalRoundKey_iff r).1 (by simpa using hl)
      obtain ⟨a, ha, hn, e⟩ := finishBlk_fault (addRoundKeyStep_answers _ hle _) h
      exact ⟨a, hn, e, .inl ⟨by simpa using hr, roundKeyReads_range hle ha⟩⟩

/-- Settles O23: while READY = 1 a current schedule is written, and only then do commands read SCHED. -/
theorem readyStatesNeverFaultOnSched : Obligations.ReadyStatesNeverFaultOnSched := by
  intro i s a _ hcurrent h
  obtain ⟨b, hn, e, hb⟩ := exec_fault h
  obtain ⟨hready, hlo, hhi⟩ | hhigh := hb
  · have hread := (hcurrent hready).2 ⟨b - 0x100, by omega⟩
    rw [show schedOff (b - 0x100) = b by simp only [schedOff, offSched]; omega, hn] at hread
    cases hread
  · rw [unwrittenFault, if_neg (by omega)] at e
    split at e <;> cases e

/-- Settles O24: with loaded stores every byte that DBLK reads is written. -/
theorem dblkDecryptsBlk : Obligations.DblkDecryptsBlk := by
  intro s hready hloaded
  rw [exec_dblk_of_ready hready]
  exact finishBlk_of_written (decryptBlockStep_answers _ _) fun _ => hloaded.reads_written

/-- Settles O22: each command's reads, checked one by one, and the store in which they lie. -/
theorem unwrittenTableEntryFaults : Obligations.UnwrittenTableEntryFaults := by
  refine ⟨fun s hn => ?init, fun s hn => ?subst, fun s c hn => ?mixcol, fun s hready => ⟨fun hn => ?dblk, fun hw => ?_⟩⟩
  case init =>
    obtain ⟨hw, -⟩ | ⟨a, ha, hnone, e⟩ := requireWritten_cases s.mem .unwrittenSbox (initLookups s)
    · obtain ⟨a, ha, hnone⟩ := hn
      have := hw a ha
      simp [Memory.written, hnone] at this
    · exact ⟨a, ha, hnone, by rw [exec, execInit, e]⟩
  case subst =>
    obtain ⟨a, ha, hnone, e⟩ := finishBlk_of_unwritten (substituteStep_answers s.mem s.blk) hn
    obtain ⟨hlo, hhi⟩ := substituteReads_range ha
    exact ⟨a, ha, hnone, unwrittenFault_of_sbox hlo hhi ▸ e⟩
  case mixcol =>
    obtain ⟨a, ha, hnone, e⟩ := finishBlk_of_unwritten (mixColumnStep_answers s.mem c.toFin s.blk) hn
    obtain ⟨hlo, hhi⟩ := mixColumnReads_range ha
    exact ⟨a, ha, hnone, unwrittenFault_of_sbox hlo hhi ▸ e⟩
  case dblk =>
    rw [exec_dblk_of_ready hready]
    exact finishBlk_of_unwritten (decryptBlockStep_answers s.mem s.blk) hn
  · rw [exec_dblk_of_ready hready]
    exact finishBlk_of_written (decryptBlockStep_answers _ _) hw

/-- Settles O58: ADDRK's round key; DBUF's pre-check and then its loop, each with everything it can answer. -/
theorem addrkAndDbufFaultOnUnwrittenByte : Obligations.AddrkAndDbufFaultOnUnwrittenByte := by
  refine ⟨fun s r hr hready hn => ?addrk, fun s h0 h16 hle hready => ?dbuf⟩
  case addrk =>
    rw [exec_addrk_of_ready hr hready]
    obtain ⟨a, ha, hnone, e⟩ := finishBlk_of_unwritten (addRoundKeyStep_answers s.mem hr s.blk) hn
    have ⟨_, hlt⟩ := roundKeyReads_range hr ha
    exact ⟨a, ha, hnone, unwrittenFault_of_sched (show a < 0x800 by omega) ▸ e⟩
  case dbuf =>
    rw [exec_dbuf_of_ready (badLength_eq_false h0 h16 hle) hready]
    have hans := lastBlockStep_answers s
    have hpad := badPadding_iff (n := padLength s) (show 16 ≤ s.len.toNat by omega)
    refine ⟨fun hn => ?_, fun hw => ⟨fun hp => ?_, fun h1 hp => ?_⟩⟩
    · obtain ⟨a, ha, hnone, e⟩ := hans.of_unwritten hn
      exact ⟨a, ha, hnone, dbufDecrypt_of_lastBlock_error e⟩
    · exact dbufDecrypt_of_badPadding (hans.of_written hw) (hpad.2 hp)
    · have hgood : badPadding (padLength s) s.len.toNat = false := by
        rw [Bool.eq_false_iff, ne_eq, hpad]
        omega
      obtain ⟨m, hloop⟩ := decryptBlocksStep_answers (s.len.toNat / 16) 0 s.mem
      refine ⟨fun ⟨k, a, hk, ha, hnone⟩ => ?_, fun hall => ?_⟩
      · obtain ⟨b, ⟨j, -, hj, hb⟩, hnone, e⟩ := hloop.of_unwritten ⟨a, ⟨k, by omega, by omega, ha⟩, hnone⟩
        exact ⟨j, b, by omega, hb, hnone, dbufDecrypt_of_loop_error (hans.of_written hw) hgood e⟩
      · have e := hloop.of_written fun a ⟨j, _, hj, ha⟩ => hall j a (by omega) ha
        exact ⟨_, dbufDecrypt_of_loop_ok (hans.of_written hw) hgood e, rfl⟩

/-- Settles O17: the entries indexed are the bytes SUBST reads. -/
theorem substLooksUpTableSeven : Obligations.SubstLooksUpTableSeven := by
  intro s hw
  have h : exec .subst s = _ := finishBlk_of_written (substituteStep_answers s.mem s.blk) fun a ⟨i, e⟩ => e ▸ hw i
  refine ⟨_, h, fun i => ?_, rfl⟩
  rw [show 0xE00 + s.blk[i].toNat = sboxOff 7 s.blk[i] from rfl, substitute_get]
  exact Memory.read_eq_sbox (hw i)

/-- Byte o of a mixed column is MixColumn's output o. -/
theorem mixColumn_getD (S : Nat → Byte → Byte) (c : Fin 4) (B : Block) (o : Fin 4) :
    (mixColumn S c B).getD (4 * c.val + o.val) 0#8 = mixOut S (columnBytes B c) o := by
  have hlt : 4 * c.val + o.val < 16 := by omega
  have hdiv : (4 * c.val + o.val) / 4 = c.val := by omega
  have hmod : (4 * c.val + o.val) % 4 = o.val := by omega
  rw [getD_inside _ _ _ hlt]
  refine (mixColumn_get S c B ⟨_, hlt⟩).trans ?_
  simp only [hdiv, if_true, hmod]

theorem columnBytes_getElem (B : Block) (c : Fin 4) (j : Nat) (h : j < 4) :
    (columnBytes B c)[j] = B.getD (4 * c.val + j) 0#8 := by
  rw [getD_inside _ _ _ (by omega)]
  simp [columnBytes]

/-- Settles O18: the entries are the bytes MIXCOL reads, and its outputs are the four rows of R93. -/
theorem mixcolGivesTheFourRows : Obligations.MixcolGivesTheFourRows := by
  intro s c x entry S hw
  have hx : ∀ j (h : j < 4), (columnBytes s.blk c.toFin)[j] = x j := columnBytes_getElem s.blk c.toFin
  have h : exec (.mixcol c) s = _ := finishBlk_of_written (mixColumnStep_answers s.mem c.toFin s.blk) (by
    rintro a ⟨i, hi, t, h1, h4, rfl⟩
    have hc : i.val / 4 = c.toNat := hi
    have hxi : x (i.val % 4) = s.blk[i] := by
      simp only [x, show 4 * c.toNat + i.val % 4 = i.val by omega]
      exact getD_inside _ _ _ i.isLt
    rw [← hxi]
    exact hw _ (Nat.mod_lt _ (by decide)) t h1 h4)
  have hout : ∀ o : Fin 4, (mixColumn s.mem.sbox c.toFin s.blk).getD (4 * c.toNat + o.val) 0#8 =
      mixOut S (columnBytes s.blk c.toFin) o := mixColumn_getD s.mem.sbox c.toFin s.blk
  obtain ⟨r0, r1, r2, r3⟩ := mixOut_rows S (columnBytes s.blk c.toFin)
  simp only [hx] at r0 r1 r2 r3
  refine ⟨_, h, (hout 0).trans r0, (hout 1).trans r1, (hout 2).trans r2, (hout 3).trans r3, fun i hi => ?_, rfl⟩
  exact (mixColumn_get _ _ _ i).trans (if_neg hi)

/-- Settles O29: the pre-check and the loop complete on loaded stores, and the loop decrypts every block from what it held. -/
theorem dbufDecryptsEveryBlock : Obligations.DbufDecryptsEveryBlock := by
  intro s h0 h16 hle hready hloaded hbuf h1 hp
  have hlast := lastBlockStep_of_loaded hloaded fun i hi => by
    have := hbuf (s.len.toNat - 16 + i) (by omega)
    rwa [Nat.zero_add] at this
  have hgood : badPadding (padLength s) s.len.toNat = false := by
    rw [Bool.eq_false_iff, ne_eq, badPadding_iff (by omega)]
    omega
  have hlen : 16 * (s.len.toNat / 16) = s.len.toNat := by omega
  obtain ⟨m, hloop⟩ := decryptBlocksStep_of_loaded (s.len.toNat / 16) 0 s.mem hloaded (hlen.symm ▸ hbuf)
  obtain ⟨hblocks, hout, -⟩ := decryptBlocksStep_eq_ok _ _ _ _ hloop
  rw [Nat.zero_add, hlen] at hout
  rw [exec_dbuf_of_ready (badLength_eq_false h0 h16 hle) hready, dbufDecrypt_of_loop_ok hlast hgood hloop]
  generalize BitVec.ofNat 32 (s.len.toNat - padLength s) = n
  exact ⟨_, rfl, fun k i hk => (hblocks k (Nat.zero_le k) (by omega)).2 i, hout, rfl⟩

/-! ## The host window, access by access (20_memory.md R51, R52) -/

/-- A read's step, as a record update. -/
theorem step_read_eq {s : State} {off : Word} {rest : List HostEvent} (hp : s.pending = .read 32 off :: rest)
    (h4 : off.toNat % 4 = 0) :
    step s = .next { s with
      pending := rest, readLog := s.readLog ++ [hostRead (s.setPending rest) off.toNat], draws := s.draws + 4 } :=
  step_read hp h4

/-- STATUS shows ERR in bits 7:4 and READY in bit 0 (10_state.md R23). -/
theorem statusWord_toNat (s : State) : (statusWord s).toNat = 16 * s.err.toNat + s.ready.toNat := by
  have h : ∀ (e : BitVec 4) (b : Bool),
      ((e.setWidth 32 <<< 4) ||| (BitVec.ofBool b).setWidth 32).toNat = 16 * e.toNat + b.toNat := by decide
  exact h s.err s.ready

/-- Settles O41: the word of each register and reserved range (R44, R48). -/
theorem hostReadsOfRegisters : Obligations.HostReadsOfRegisters := by
  intro s rest off hp h4
  refine ⟨_, step_read_eq hp h4, fun h => ?cmd, fun h => ?status, fun h => ?len, fun h => ?outLen, fun hlo hhi j hj => ?key,
    fun hlo hhi j hj => ?mixv, fun hlo hhi j hj => ?blk, fun h => ?reserved⟩
  case cmd => rw [h, hostRead_cmd]
  case status =>
    rw [h, hostRead_status]
    exact statusWord_toNat s
  case len =>
    rw [h, hostRead_len]
    rfl
  case outLen =>
    rw [h, hostRead_outLen]
    rfl
  case key =>
    rw [hostRead_key ⟨hlo, by omega⟩, byteOf_storeWord _ _ _ hj]
    rfl
  case mixv =>
    rw [hostRead_mixv ⟨hlo, by omega⟩, byteOf_storeWord _ _ _ hj]
    split
    · rfl
    · exact getD_outside _ _ _ (by omega)
  case blk =>
    rw [hostRead_blk ⟨hlo, by omega⟩, byteOf_storeWord _ _ _ hj]
    rfl
  case reserved =>
    apply hostRead_reserved
    rw [State.setPending_bufBytes]
    omega

/-- SCHED, SBOX and BUF read the stores (R44). -/
theorem hostRead_stores {s : State} {a : Nat} (h4 : a % 4 = 0)
    (h : (0x100 ≤ a ∧ a < 0x1B0) ∨ (0x800 ≤ a ∧ a < 0x1000 + s.bufBytes)) : hostRead s a = hostStoreWord s a := by
  obtain ⟨hlo, hhi⟩ | ⟨hlo, hhi⟩ := h
  · exact hostRead_sched ⟨hlo, by omega⟩
  · by_cases hbuf : 0x1000 ≤ a
    · exact hostRead_buf ⟨hbuf, hhi⟩
    · exact hostRead_sbox ⟨hlo, by omega⟩

/-- Settles O42: lane j is the byte stored, or free byte number `draws + j`. -/
theorem hostReadsOfStores : Obligations.HostReadsOfStores := by
  intro s rest off hp h4 hoff
  refine ⟨_, step_read_eq hp h4, fun j hj => ?_⟩
  rw [hostRead_stores (s := s.setPending rest) h4 hoff, byteOf_hostStoreWord _ _ _ hj, hostByte, State.setPending_mem, State.setPending_draws]
  refine ⟨fun b hb => ?_, fun hn => ?_⟩
  · rw [hb, Option.getD_some]
  · rw [hn, Option.getD_none]

/-- Settles O43: each register's region of the window (R44) and the word's lanes in it. -/
theorem hostWritesToRegisters : Obligations.HostWritesToRegisters := by
  intro s rest off v hp h4
  rw [step_write hp h4]
  refine ⟨fun h => ?len, fun hlo hhi => ?key, fun hlo hhi => ?mixv, fun hlo hhi => ?blk⟩
  case len =>
    rw [h, hostWrite_len]
    rfl
  case key =>
    rw [hostWrite_key v ⟨hlo, by omega⟩, State.setPending_key]
    have hget := setStoreWord_get s.key (off.toNat - 0x010) v
    generalize setStoreWord s.key (off.toNat - 0x010) v = K at hget ⊢
    exact ⟨_, rfl, fun i => hget i.val i.isLt, rfl⟩
  case mixv =>
    rw [hostWrite_mixv v ⟨hlo, by omega⟩, State.setPending_mixv]
    have hget := setStoreWord_get s.mixv (off.toNat - 0x020) v
    generalize setStoreWord s.mixv (off.toNat - 0x020) v = M at hget ⊢
    exact ⟨_, rfl, fun i => hget i.val i.isLt, rfl⟩
  case blk =>
    rw [hostWrite_blk v ⟨hlo, by omega⟩, State.setPending_blk]
    have hget := setStoreWord_get s.blk (off.toNat - 0x030) v
    generalize setStoreWord s.blk (off.toNat - 0x030) v = B at hget ⊢
    exact ⟨_, rfl, fun i => hget i.val i.isLt, rfl⟩

/-- A write to SBOX or BUF stores the word, and READY is cleared in SBOX only (R52). -/
theorem hostWrite_stores {s : State} {a : Nat} (v : Word) (h4 : a % 4 = 0) (hlo : 0x800 ≤ a) (hhi : a < 0x1000 + s.bufBytes) :
    hostWrite s a v = .next { s with
      mem := s.mem.writeBytes a (bytesOf v).toList, ready := if a < 0x1000 then false else s.ready } := by
  by_cases hbuf : a < 0x1000
  · rw [hostWrite_sbox v ⟨hlo, by omega⟩, if_pos hbuf]
    rfl
  · rw [hostWrite_buf v ⟨by omega, hhi⟩, if_neg hbuf]
    rfl

/-- Settles O44: a word written into the stores, byte by byte. -/
theorem hostWritesToStores : Obligations.HostWritesToStores := by
  intro s rest off v hp h4 hlo hhi
  rw [step_write hp h4, hostWrite_stores (s := s.setPending rest) v h4 hlo hhi]
  refine ⟨_, rfl, fun j hj => ?_, fun a ha => ?_, rfl⟩
  · dsimp only
    rw [read_writeWord, if_pos (by omega), Nat.add_sub_cancel_left]
  · exact (read_writeWord _ _ _ _).trans (if_neg ha)

/-- Settles O45: the map's read-only and reserved offsets. -/
theorem hostWritesIgnored : Obligations.HostWritesIgnored := by
  intro s rest off v hp h4 hoff
  rw [step_write hp h4]
  apply hostWrite_ignored
  rw [State.setPending_bufBytes]
  omega

/-! ### A written word reads back -/

/-- A written word of the stores reads back, whatever the rest of the state is. -/
theorem hostStoreWord_of_written {s : State} {m : Memory} {a : Nat} {v : Word}
    (h : s.mem = m.writeBytes a (bytesOf v).toList) : hostStoreWord s a = v := by
  apply word_ext
  intro j hj
  rw [byteOf_hostStoreWord _ _ _ hj, hostByte, h, read_writeWord, if_pos (by omega), Option.getD_some,
    Nat.add_sub_cancel_left]

/-- The low half of a word, byte by byte. -/
theorem byteOf_and_lowHalf (v : Word) : ∀ j, j < 4 → byteOf (v &&& 0x0000FFFF#32) j = if j < 2 then byteOf v j else 0#8 := by
  have hbits : ∀ k, k < 32 → (0x0000FFFF#32).getLsbD k = decide (k < 16) := by decide
  intro j hj
  apply BitVec.eq_of_getLsbD_eq
  intro i hi
  simp only [byteOf, BitVec.getLsbD_extractLsb', BitVec.getLsbD_and]
  rw [hbits _ (by omega)]
  split
  · simp [BitVec.getLsbD_extractLsb', show 8 * j + i < 16 by omega]
  · simp [show ¬ 8 * j + i < 16 by omega]

/-- Of a word written to MIXV2 the low half reads back: its upper lanes lie past MIXV[9] (R30, R48). -/
theorem storeWord_setStoreWord_mixv2 (x : Vector Byte 10) (v : Word) :
    storeWord (setStoreWord x 8 v) 8 = v &&& 0x0000FFFF#32 := by
  apply word_ext
  intro j hj
  rw [byteOf_storeWord _ _ _ hj, byteOf_and_lowHalf v j hj]
  split
  · rw [getD_inside _ _ _ (by omega), setStoreWord_get _ _ _ _ (by omega), if_pos (by omega), Nat.add_sub_cancel_left]
  · exact getD_outside _ _ _ (by omega)

/-- A write and a read of the same offset: the word logged is the one the engine shows there after the write. -/
theorem write_then_read {s t : State} {rest : List HostEvent} {off v w : Word}
    (hp : s.pending = .write 32 off v :: .read 32 off :: rest) (h4 : off.toNat % 4 = 0)
    (hw : hostWrite (s.setPending (.read 32 off :: rest)) off.toNat v = .next t)
    (hkeep : t.pending = .read 32 off :: rest ∧ t.readLog = s.readLog) (hr : hostRead (t.setPending rest) off.toNat = w) :
    ∃ t u, step s = .next t ∧ step t = .next u ∧ u.readLog = s.readLog ++ [w] := by
  obtain ⟨hpend, hlog⟩ := hkeep
  refine ⟨t, _, (step_write hp h4).trans hw, step_read_eq hpend h4, ?_⟩
  rw [← hlog, ← hr]

/-- Settles O46: region by region, what the write stores is what the read composes. -/
theorem writtenWordReadsBack : Obligations.WrittenWordReadsBack := by
  intro s rest off v hp h4
  refine ⟨fun h => ?_, fun h => ?mixv2⟩
  case mixv2 =>
    refine write_then_read hp h4 (hostWrite_mixv v (by omega)) (by simp) ?_
    rw [hostRead_mixv (by omega), h]
    exact storeWord_setStoreWord_mixv2 _ v
  obtain h | ⟨hlo, hhi⟩ | ⟨hlo, hhi⟩ | ⟨hlo, hhi⟩ := h
  · have hw (t : State) : hostWrite t off.toNat v = .next (t.setLen v) := by rw [h, hostWrite_len]
    refine write_then_read hp h4 (hw _) (by simp) ?_
    rw [h, hostRead_len]
    rfl
  · by_cases hk : off.toNat < 0x020
    · refine write_then_read hp h4 (hostWrite_key v (by omega)) (by simp) ?_
      rw [hostRead_key (by omega)]
      exact storeWord_setStoreWord _ _ v (by omega)
    · refine write_then_read hp h4 (hostWrite_mixv v (by omega)) (by simp) ?_
      rw [hostRead_mixv (by omega)]
      exact storeWord_setStoreWord _ _ v (by omega)
  · refine write_then_read hp h4 (hostWrite_blk v (by omega)) (by simp) ?_
    rw [hostRead_blk (by omega)]
    exact storeWord_setStoreWord _ _ v (by omega)
  · refine write_then_read hp h4 (hostWrite_stores v h4 hlo hhi) (by simp) ?_
    refine (hostRead_stores h4 ?_).trans (hostStoreWord_of_written (m := s.mem) rfl)
    exact .inr ⟨hlo, hhi⟩

/-! ## Loading a table (30_encoding.md R75) -/

/-- The accesses of a run of word writes from an offset up. -/
def wordWrites (base n : Nat) (w : Nat → Word) : List HostEvent :=
  (List.range n).map fun k => .write 32 (BitVec.ofNat 32 (base + 4 * k)) (w k)

theorem wordWrites_succ (base n : Nat) (w : Nat → Word) :
    wordWrites base (n + 1) w =
      .write 32 (BitVec.ofNat 32 base) (w 0) :: wordWrites (base + 4) n fun k => w (k + 1) := by
  rw [wordWrites, List.range_succ_eq_map, List.map_cons, List.map_map]
  congr 1
  apply List.map_congr_left
  intro k _
  simp only [Function.comp_apply]
  congr 2
  omega

/-- A run of word writes inside the tables stores its words, leaves every other byte, and clears READY if it writes at all. -/
theorem run_wordWrites : ∀ (n base : Nat) (w : Nat → Word) (s : State) (rest : List HostEvent),
    base % 4 = 0 → 0x800 ≤ base → base + 4 * n ≤ 0x1000 → s.pending = wordWrites base n w ++ rest →
    ∃ u : State, Sys2Proof.core.run n s = .next u ∧
      (∀ k j, k < n → j < 4 → u.mem.read (base + 4 * k + j) = some (byteOf (w k) j)) ∧
      (∀ a, ¬ (base ≤ a ∧ a < base + 4 * n) → u.mem.read a = s.mem.read a) ∧
      u = { s with pending := rest, mem := u.mem, ready := decide (n = 0) && s.ready } := by
  intro n
  induction n with
  | zero =>
    intro base w s rest _ _ _ hp
    refine ⟨s, rfl, fun k j hk => absurd hk (Nat.not_lt_zero k), fun _ _ => rfl, ?_⟩
    rw [decide_eq_true rfl, Bool.true_and]
    exact congrArg s.setPending hp
  | succ n ih =>
    intro base w s rest h4 hlo hhi hp
    rw [wordWrites_succ] at hp
    have hoff : (BitVec.ofNat 32 base).toNat = base := by
      rw [BitVec.toNat_ofNat]
      omega
    obtain ⟨t, hstep, hin0, hout0, ht⟩ := hostWritesToStores s _ _ _ hp (by rwa [hoff]) (by rwa [hoff]) (by omega)
    rw [hoff] at hin0 hout0 ht
    rw [if_pos (by omega)] at ht
    obtain ⟨u, hrun, hin, hout, hu⟩ :=
      ih (base + 4) (fun k => w (k + 1)) t rest (by omega) (by omega) (by omega) (by rw [ht]; rfl)
    refine ⟨u, (core_run_succ hstep).trans hrun, fun k j hk hj => ?_, fun a ha => ?_, hu.trans ?_⟩
    · cases k with
      | zero => exact (hout _ (by omega)).trans (hin0 j hj)
      | succ k => exact (congrArg u.mem.read (by omega)).trans (hin k j (by omega) hj)
    · exact (hout a (by omega)).trans (hout0 a (by omega))
    · have hready : t.ready = false := by rw [ht]
      rw [hready, Bool.and_false, ht]
      rfl

/-- Word k of a whole table: its entries 4k to 4k + 3. -/
def tableWord (f : Byte → Byte) (k : Nat) : Word :=
  le32 (f (BitVec.ofNat 8 (4 * k))) (f (BitVec.ofNat 8 (4 * k + 1))) (f (BitVec.ofNat 8 (4 * k + 2)))
    (f (BitVec.ofNat 8 (4 * k + 3)))

theorem byteOf_tableWord (f : Byte → Byte) (k : Nat) {j : Nat} (hj : j < 4) :
    byteOf (tableWord f k) j = f (BitVec.ofNat 8 (4 * k + j)) := by
  obtain ⟨h0, h1, h2, h3⟩ := byteOf_le32 (f (BitVec.ofNat 8 (4 * k))) (f (BitVec.ofNat 8 (4 * k + 1)))
    (f (BitVec.ofNat 8 (4 * k + 2))) (f (BitVec.ofNat 8 (4 * k + 3)))
  obtain rfl | rfl | rfl | rfl : j = 0 ∨ j = 1 ∨ j = 2 ∨ j = 3 := by omega
  exacts [h0, h1, h2, h3]

/-- The accesses of `ldsbox t, f` are the writes of the table's 64 words from its base up (R75). -/
theorem accesses_ldsbox (t : Nat) (f : Byte → Byte) :
    accesses (ldsbox t f) = wordWrites (0x800 + 0x100 * (t - 1)) 64 (tableWord f) := by
  have hentry : ∀ e, e < 256 →
      ((List.range 256).map fun x => f (BitVec.ofNat 8 x)).getD e 0#8 = f (BitVec.ofNat 8 e) := by
    intro e he
    simp [List.getD, he]
  rw [accesses, ldsbox, loadWords, List.map_map, List.length_map, List.length_range, wordWrites]
  apply List.map_congr_left
  intro k hk
  have hk : k < 64 := List.mem_range.1 hk
  rw [Function.comp_apply, hentry _ (by omega), hentry _ (by omega), hentry _ (by omega), hentry _ (by omega)]
  rfl

/-- Settles O49: the table's 64 words, each holding four of its entries, stored one after the other. -/
theorem ldsboxLoadsTheTable : Obligations.LdsboxLoadsTheTable := by
  intro s t f rest h1 h8 hp
  rw [accesses_ldsbox] at hp ⊢
  refine ⟨by rw [wordWrites, List.length_map, List.length_range], ?_⟩
  obtain ⟨u, hrun, hin, hout, hu⟩ := run_wordWrites 64 _ _ s rest (by omega) (by omega) (by omega) hp
  refine ⟨u, hrun, fun x => ?_, fun a ha => hout a (by omega), hu⟩
  have hx := x.isLt
  have hread := hin (x.toNat / 4) (x.toNat % 4) (by omega) (by omega)
  rwa [byteOf_tableWord f _ (by omega), Nat.add_assoc, Nat.div_add_mod, BitVec.ofNat_toNat, BitVec.setWidth_eq] at hread

/-! ## Commands, and reset (R41, R54) -/

/-- Settles O5: a write to CMD hands its word to ExecuteCommand, which decodes it. -/
theorem stepRunsDecodedInstruction : Obligations.StepRunsDecodedInstruction := by
  intro s v rest i hp hd
  rw [step_write hp (by decide)]
  change executeCommand v (s.setPending rest) = _
  rw [executeCommand, hd]

/-- Settles O55: the values are the ones written in `State.reset`. -/
theorem resetValuesAreTabled : Obligations.ResetValuesAreTabled :=
  ⟨rfl, rfl, by decide, rfl, rfl, by decide, by decide, by decide, fun _ => rfl⟩

/-- Settles O56: the reset input answers `resetEngine`, which starts from `State.reset`. -/
theorem resetInputRestoresResetValues : Obligations.ResetInputRestoresResetValues := by
  intro s rest hp
  have hstep : step s = .next (resetEngine (s.setPending rest)) := by
    simp only [step, nextAccess, hp, hostEvent]
  exact ⟨_, hstep, rfl, rfl, rfl, rfl, rfl, rfl, rfl, fun _ => rfl, rfl, rfl, rfl, rfl⟩

end Sys2Proof.Machine
end

section
/-! SUPPORT. The host window (20_memory.md): the schedule bytes that INIT stores there (40_key_schedule.md R78 to R82), and the
accesses that fault. -/

namespace Sys2Proof.Machine

/-! ## The schedule, word by word (R78, R79) -/

section
variable {key : Block} {S8 : Byte → Byte} {mixv : Vector Byte 10} {w p : Nat}

/-- Byte p of schedule word w (R80). -/
def scheduleByte (key : Block) (S8 : Byte → Byte) (mixv : Vector Byte 10) (w p : Nat) : Byte :=
  (expand key S8 mixv).getD (4 * w + p) 0#8

/-- Schedule word 4r + q is word q of round key r (10_state.md R32). -/
theorem scheduleByte_eq_roundKey {r q : Nat} (hw : w = 4 * r + q) (hr : r < 11) (hq : q < 4) (hp : p < 4) :
    scheduleByte key S8 mixv w p = (roundKey key S8 mixv r)[4 * q + p] := by
  have hround : (4 * w + p) / 16 = r := by omega
  have hbyte : (4 * w + p) % 16 = 4 * q + p := by omega
  rw [scheduleByte, getD_inside _ _ _ (by omega), expand_get]
  simp only [hround, hbyte]

/-- The first four words are the transformed key (R77). -/
theorem scheduleByte_of_lt_four (hw : w < 4) (hp : p < 4) :
    scheduleByte key S8 mixv w p = key.getD (4 * w + p) 0#8 ^^^ whiten (4 * w + p) := by
  rw [scheduleByte_eq_roundKey (r := 0) (by omega) (by omega) hw hp, getD_inside _ _ _ (by omega)]
  exact transformKey_get _ _ _

/-- The first word of a computed round key: the word before it, rotated and substituted, with the mixing-vector entry in
byte 0 (R78). -/
theorem scheduleByte_of_mod_four_eq_zero (h4 : 4 ≤ w) (hw : w < 44) (h0 : w % 4 = 0) :
    let W := scheduleByte key S8 mixv
    W w 0 = W (w - 4) 0 ^^^ (S8 (W (w - 1) 1) ^^^ mixv.getD (w / 4 - 1) 0#8) ∧
    W w 1 = W (w - 4) 1 ^^^ S8 (W (w - 1) 2) ∧
    W w 2 = W (w - 4) 2 ^^^ S8 (W (w - 1) 3) ∧
    W w 3 = W (w - 4) 3 ^^^ S8 (W (w - 1) 0) := by
  obtain ⟨r, rfl⟩ : ∃ r, w = 4 * (r + 1) := ⟨w / 4 - 1, by omega⟩
  have hentry : 4 * (r + 1) / 4 - 1 = r := by omega
  obtain ⟨h0, h1, h2, h3⟩ := nextRoundKey_first S8 (mixv.getD r 0#8) (roundKey key S8 mixv r)
  simp only [scheduleByte_eq_roundKey (w := 4 * (r + 1)) (r := r + 1) (q := 0) (by omega) (by omega) (by omega),
    scheduleByte_eq_roundKey (w := 4 * (r + 1) - 4) (r := r) (q := 0) (by omega) (by omega) (by omega),
    scheduleByte_eq_roundKey (w := 4 * (r + 1) - 1) (r := r) (q := 3) (by omega) (by omega) (by omega),
    hentry, roundKey, Nat.reduceLT, Nat.reduceMul, Nat.reduceAdd, BitVec.xor_comm _ (S8 _ ^^^ _), BitVec.xor_comm _ (S8 _)]
  exact ⟨h0, h1, h2, h3⟩

/-- Every other word of a computed round key chains the word before it onto the same word of the round key before (R78, R79). -/
theorem scheduleByte_of_mod_four_ne_zero (h4 : 4 ≤ w) (hw : w < 44) (h0 : w % 4 ≠ 0) (hp : p < 4) :
    scheduleByte key S8 mixv w p = scheduleByte key S8 mixv (w - 4) p ^^^ scheduleByte key S8 mixv (w - 1) p := by
  obtain ⟨r, q, hq, rfl⟩ : ∃ r q, q < 3 ∧ w = 4 * (r + 1) + (q + 1) := ⟨w / 4 - 1, w % 4 - 1, by omega, by omega⟩
  rw [scheduleByte_eq_roundKey (r := r + 1) rfl (by omega) (by omega) hp,
    scheduleByte_eq_roundKey (r := r) (q := q + 1) (by omega) (by omega) (by omega) hp,
    scheduleByte_eq_roundKey (r := r + 1) (q := q) (by omega) (by omega) (by omega) hp, BitVec.xor_comm]
  have hidx : 4 * (q + 1) + p = 4 * q + p + 4 := by omega
  simp only [hidx]
  exact nextRoundKey_chain S8 (mixv.getD r 0#8) (roundKey key S8 mixv r) (4 * q + p) (by omega)

/-- Four lookups at each of the ten rotate-and-substitute points (R82). -/
theorem length_expandLookups : (expandLookups key S8 mixv).length = 40 := by
  simp [expandLookups, mixvUsed]

/-- The lookups are at the bytes of the last word of each round key but the last (R82). -/
theorem mem_expandLookups_iff_scheduleByte {x : Byte} :
    x ∈ expandLookups key S8 mixv ↔ ∃ r p, r < 10 ∧ p < 4 ∧ x = scheduleByte key S8 mixv (4 * r + 3) p := by
  have hword : ∀ r p, r < 10 → ∀ hp : p < 4,
      scheduleByte key S8 mixv (4 * r + 3) p = (roundKey key S8 mixv r)[12 + p] :=
    fun r p hr hp => scheduleByte_eq_roundKey rfl (by omega) (by omega) hp
  rw [mem_expandLookups]
  constructor
  · rintro ⟨r, p, hp, hr, rfl⟩
    exact ⟨r, p, hr, hp, (hword r p hr hp).symm⟩
  · rintro ⟨r, p, hr, hp, hx⟩
    exact ⟨r, p, hp, hr, hx.trans (hword r p hr hp)⟩

end

theorem sboxOff_eight (x : Byte) : sboxOff 8 x = 0xF00 + x.toNat := rfl

/-- The offsets that INIT looks up: table 8, at 0xF00 and up, at the bytes of schedule words 3, 7, ..., 39. -/
theorem mem_initLookups_iff {s : State} {a : Nat} :
    a ∈ initLookups s ↔ ∃ r p, r < 10 ∧ p < 4 ∧
      a = 0xF00 + (scheduleByte s.key (fun x => (s.mem.read (0xF00 + x.toNat)).getD 0#8) s.mixv (4 * r + 3) p).toNat := by
  rw [initLookups, Memory.sbox_eight, List.mem_map]
  simp only [mem_expandLookups_iff_scheduleByte]
  constructor
  · rintro ⟨x, ⟨r, p, hr, hp, hx⟩, ha⟩
    exact ⟨r, p, hr, hp, by rw [← ha, ← hx, sboxOff_eight]⟩
  · rintro ⟨r, p, hr, hp, ha⟩
    exact ⟨_, ⟨r, p, hr, hp, rfl⟩, by rw [ha, sboxOff_eight]⟩

/-- Settles O12: the schedule's words by their place in a round key, and INIT's lookups at the last word of each. -/
theorem expandHasClosedForm : Obligations.ExpandHasClosedForm := by
  refine ⟨fun key S8 mixv => ⟨fun w p hw hp => scheduleByte_of_lt_four hw hp, fun w h4 hw => ⟨?_, ?_⟩⟩, fun s => ⟨?_, ?_⟩⟩
  · exact scheduleByte_of_mod_four_eq_zero h4 hw
  · exact fun h0 p hp => scheduleByte_of_mod_four_ne_zero h4 hw h0 hp
  · rw [initLookups, List.length_map, length_expandLookups]
  · exact fun a => mem_initLookups_iff

/-! ## Bus errors (R49, R50) -/

/-- An access of another width is a bus error (R49). -/
theorem accessFault_of_width {bits : Nat} (off : Word) (h : bits ≠ 32) : accessFault bits off = some (.busWidth bits) :=
  if_pos h

/-- A misaligned 32-bit access is a bus error (R50). -/
theorem accessFault_of_misaligned {off : Word} (h : off.toNat % 4 ≠ 0) : accessFault 32 off = some (.busMisaligned off) :=
  if_pos h

/-- A step whose next access, a read or a write, is a bus error faults with it (60_exceptions.md R121). -/
theorem step_of_accessFault {s : State} {rest : List HostEvent} {bits : Nat} {off v : Word} {f : Fault}
    (hp : s.pending = .read bits off :: rest ∨ s.pending = .write bits off v :: rest) (hf : accessFault bits off = some f) :
    step s = .fault f := by
  rcases hp with hp | hp
  · simp only [step, nextAccess, hp, hostEvent, hf]
  · simp only [step, nextAccess, hp, hostEvent, hf]

/-- Settles O40: the width is tested before the alignment. -/
theorem badAccessFaults : Obligations.BadAccessFaults := by
  intro s rest bits off v hp
  refine ⟨fun hbits => step_of_accessFault hp (accessFault_of_width off hbits), ?_⟩
  rintro rfl hoff
  exact step_of_accessFault hp (accessFault_of_misaligned hoff)

end Sys2Proof.Machine
end

section
/-! SUPPORT. The command word (30_encoding.md): its fields, the decoder and the encoder as inverses of each other, and the steps
whose access is a CMD write. -/

namespace Sys2Proof.Machine

/-! ## The fields of a command word (R67), as numbers -/

theorem toNat_opField (w : Word) : (opField w).toNat = w.toNat % 256 := by
  simp [opField]

theorem toNat_argField (w : Word) : (argField w).toNat = w.toNat / 256 % 16 := by
  simp [argField, Nat.shiftRight_eq_div_pow]

theorem toNat_rsvField (w : Word) : (rsvField w).toNat = w.toNat / 4096 := by
  have hw := w.isLt
  simp only [rsvField, BitVec.extractLsb'_toNat, Nat.shiftRight_eq_div_pow]
  omega

theorem toNat_commandWord (op : BitVec 8) (arg : BitVec 4) : (commandWord op arg).toNat = op.toNat + 256 * arg.toNat := by
  have hop := op.isLt
  have harg := arg.isLt
  have hshift : (arg.setWidth 32 <<< 8).toNat = arg.toNat <<< 8 := by
    simp only [BitVec.toNat_shiftLeft, BitVec.toNat_setWidth, Nat.shiftLeft_eq]
    omega
  rw [commandWord, BitVec.toNat_or, hshift, BitVec.toNat_setWidth, Nat.mod_eq_of_lt (by omega), Nat.or_comm,
    ← Nat.shiftLeft_add_eq_or_of_lt hop, Nat.shiftLeft_eq]
  omega

@[simp] theorem opField_commandWord (op : BitVec 8) (arg : BitVec 4) : opField (commandWord op arg) = op := by
  apply BitVec.eq_of_toNat_eq
  have hop := op.isLt
  rw [toNat_opField, toNat_commandWord]
  omega

@[simp] theorem argField_commandWord (op : BitVec 8) (arg : BitVec 4) : argField (commandWord op arg) = arg := by
  apply BitVec.eq_of_toNat_eq
  have hop := op.isLt
  have harg := arg.isLt
  rw [toNat_argField, toNat_commandWord]
  omega

@[simp] theorem rsvField_commandWord (op : BitVec 8) (arg : BitVec 4) : rsvField (commandWord op arg) = 0#20 := by
  apply BitVec.eq_of_toNat_eq
  have hop := op.isLt
  have harg := arg.isLt
  rw [toNat_rsvField, toNat_commandWord, BitVec.toNat_ofNat]
  omega

/-- A word with RSV = 0 is made of its OP and its ARG. -/
theorem commandWord_fields {w : Word} (h : rsvField w = 0#20) : commandWord (opField w) (argField w) = w := by
  have hrsv : w.toNat / 4096 = 0 := by rw [← toNat_rsvField, h]; rfl
  apply BitVec.eq_of_toNat_eq
  rw [toNat_commandWord, toNat_opField, toNat_argField]
  omega

/-! ## The decoder and the encoder (R68, R69, R70) -/

/-- MIXCOL's ARG is a column number, zero-extended (R68). -/
theorem decodeMixcol_eq_ok {w : Word} {i : Instr} :
    decodeMixcol w = .ok i ↔ ∃ c : BitVec 2, argField w = c.setWidth 4 ∧ i = .mixcol c := by
  have column : ∀ c : BitVec 2, (c.setWidth 4).extractLsb' 2 2 = 0#2 ∧ (c.setWidth 4).extractLsb' 0 2 = c := by decide
  have extended : ∀ a : BitVec 4, a.extractLsb' 2 2 = 0#2 → a = (a.extractLsb' 0 2).setWidth 4 := by decide
  unfold decodeMixcol
  constructor
  · intro h
    split at h
    next ha => exact ⟨_, extended _ ha, (Except.ok.inj h).symm⟩
    next => cases h
  · rintro ⟨c, hc, rfl⟩
    rw [hc, if_pos (column c).1, (column c).2]

/-- ADDRK's ARG is its round-key number, 0 to 10 (R68). -/
theorem decodeAddrk_eq_ok {w : Word} {i : Instr} :
    decodeAddrk w = .ok i ↔ (argField w).toNat ≤ 10 ∧ i = .addrk (argField w) := by
  unfold decodeAddrk
  split <;> simp [*, eq_comm]

/-- Settles O1: `encode` puts OP and ARG where `decode` reads them, with RSV = 0, and the operand's own rule accepts ARG. -/
theorem decodeOfEncodeIsIdentity : Obligations.DecodeOfEncodeIsIdentity := by
  intro i hwf
  cases i with
  | init => simp [encode, decode, decodeNoArg_eq_ok]
  | dblk => simp [encode, decode, decodeNoArg_eq_ok]
  | dbuf => simp [encode, decode, decodeNoArg_eq_ok]
  | perm => simp [encode, decode, decodeNoArg_eq_ok]
  | subst => simp [encode, decode, decodeNoArg_eq_ok]
  | mixcol c => simp [encode, decode, decodeMixcol_eq_ok]
  | addrk r =>
    have hr : r.toNat ≤ 10 := of_decide_eq_true hwf
    simp [encode, decode, decodeAddrk_eq_ok, hr]

/-- With RSV = 0, a word that decodes to a command without operand is that command's word. -/
theorem encode_of_decodeNoArg {w : Word} {i j : Instr} (hrsv : rsvField w = 0#20) (hd : decodeNoArg w i = .ok j)
    (hwf : i.wellFormed = true) (he : encode i = commandWord (opField w) 0#4) : j.wellFormed = true ∧ encode j = w := by
  obtain ⟨harg, rfl⟩ := decodeNoArg_eq_ok.1 hd
  exact ⟨hwf, by rw [he, ← harg, commandWord_fields hrsv]⟩

/-- Settles O2: with RSV = 0 the word is its OP and its ARG, and the arm of the decoder that answers fixes both. -/
theorem decodedWordIsItsEncoding : Obligations.DecodedWordIsItsEncoding := by
  intro w i h
  unfold decode at h
  split_ifs at h with hrsv hinit hdblk hdbuf hperm hsubst hmixcol haddrk <;> replace hrsv := not_not.1 hrsv
  · exact encode_of_decodeNoArg hrsv h rfl (by rw [hinit, encode])
  · exact encode_of_decodeNoArg hrsv h rfl (by rw [hdblk, encode])
  · exact encode_of_decodeNoArg hrsv h rfl (by rw [hdbuf, encode])
  · exact encode_of_decodeNoArg hrsv h rfl (by rw [hperm, encode])
  · exact encode_of_decodeNoArg hrsv h rfl (by rw [hsubst, encode])
  · obtain ⟨c, hc, rfl⟩ := decodeMixcol_eq_ok.1 h
    exact ⟨rfl, by rw [encode, ← hmixcol, ← hc, commandWord_fields hrsv]⟩
  · obtain ⟨hr, rfl⟩ := decodeAddrk_eq_ok.1 h
    exact ⟨decide_eq_true hr, by rw [encode, ← haddrk, commandWord_fields hrsv]⟩

/-! ## The legal words (R72) -/

/-- The word of a well-formed command is one of the 20. -/
theorem encode_mem_legalWords (i : Instr) : Laws.Legal.Statement i := by
  cases i with
  | init => exact Laws.Legal.init
  | dblk => exact Laws.Legal.dblk
  | dbuf => exact Laws.Legal.dbuf
  | perm => exact Laws.Legal.perm
  | subst => exact Laws.Legal.subst
  | mixcol c => exact Laws.Legal.mixcol c
  | addrk r => exact Laws.Legal.addrk r

theorem isOk_decode_of_mem_legalWords : legalWords.all (fun w => (decode w).isOk) = true := by decide

/-- A word decodes when it is one of the 20 legal words, and only then. -/
theorem exists_decode_eq_ok_iff (w : Word) : (∃ i, decode w = .ok i) ↔ w ∈ legalWords := by
  constructor
  · rintro ⟨i, hd⟩
    obtain ⟨hwf, rfl⟩ := decodedWordIsItsEncoding w i hd
    exact encode_mem_legalWords i hwf
  · intro hw
    have hok := List.all_eq_true.1 isOk_decode_of_mem_legalWords w hw
    cases hd : decode w with
    | ok i => exact ⟨i, rfl⟩
    | error e => rw [hd] at hok; cases hok

/-- Settles O3: the words that decode, by `exists_decode_eq_ok_iff`, and the list as it is written out. -/
theorem legalCommandsAreTheTwentyWords : Obligations.LegalCommandsAreTheTwentyWords :=
  ⟨exists_decode_eq_ok_iff, by decide, rfl⟩

/-- Settles O4: the decoder run on each of the words. -/
theorem opcodeMapWordsDecode : Obligations.OpcodeMapWordsDecode := by
  unfold Obligations.OpcodeMapWordsDecode
  decide

/-! ## CMD writes (R66, R70, R71) -/

/-- A word that is none of the 20 is refused (R71, 60_exceptions.md R120). -/
theorem executeCommand_of_not_mem_legalWords {v : Word} (hv : v ∉ legalWords) (s : State) :
    executeCommand v s = .next (s.raise .illegalCommand) := by
  unfold executeCommand
  cases hd : decode v with
  | ok i => exact absurd ((exists_decode_eq_ok_iff v).1 ⟨i, hd⟩) hv
  | error e => rfl

/-- Settles O8: the write hands its word to ExecuteCommand, which refuses it. -/
theorem stepOfIllegalWordOnlySetsErr : Obligations.StepOfIllegalWordOnlySetsErr := by
  intro s v rest hp hv
  rw [step_write hp (by decide)]
  exact executeCommand_of_not_mem_legalWords hv _

/-- The host's next access after a command is issued: the 32-bit write of its word to CMD (log entry 1). -/
theorem pending_withFetchWord (s : State) (v : Word) :
    (s.withFetchWord 32 v.toNat).pending = .write 32 0x000#32 v :: s.pending := by
  rw [State.withFetchWord, Nat.mod_eq_of_lt v.isLt, BitVec.ofNat_toNat, BitVec.setWidth_eq]
  rfl

/-- Settles O6: the issued word is the next access, and it decodes to its command. -/
theorem issuedWordRunsItsCommand : Obligations.IssuedWordRunsItsCommand := by
  intro s i hwf
  exact stepRunsDecodedInstruction _ _ _ i (pending_withFetchWord s (encode i)) (decodeOfEncodeIsIdentity i hwf)

end Sys2Proof.Machine
end

section
/-! SUPPORT. Host programs (30_encoding.md R73 to R76): the pseudo-instructions that decrypt BLK with the
primitives, and the text of a command. -/

namespace Sys2Proof.Machine

/-! ## The primitives one after the other (R75, 42_engine_commands.md R103) -/

/-- While READY = 1, these commands do to BLK what f computes from the stores and BLK, faults included. -/
def ComputesBlk (cs : List Instr) (f : Memory → Block → Except Fault Block) : Prop :=
  ∀ s : State, s.ready = true → execAll cs s = finishBlk s (f s.mem s.blk)

theorem execAll_append (cs ds : List Instr) (s : State) :
    execAll (cs ++ ds) s =
      match execAll cs s with
      | .next t => execAll ds t
      | .fault f => .fault f
      | .refused r => .refused r := by
  induction cs generalizing s with
  | nil => rfl
  | cons i cs ih =>
    simp only [List.cons_append, execAll]
    cases exec i s with
    | next t => exact ih t
    | fault f => rfl
    | refused r => rfl

theorem execAll_singleton (i : Instr) (s : State) : execAll [i] s = exec i s := by
  rw [execAll]
  cases exec i s <;> rfl

/-- A command that a later one follows leaves only its block behind: the later one writes ERR again. -/
theorem finishBlk_setBlk_succeed (s : State) (B : Block) (r : Except Fault Block) :
    finishBlk (s.setBlk B).succeed r = finishBlk s r := by
  cases r <;> rfl

theorem ComputesBlk.single {i : Instr} {f : Memory → Block → Except Fault Block}
    (h : ∀ s : State, s.ready = true → exec i s = finishBlk s (f s.mem s.blk)) : ComputesBlk [i] f :=
  fun s hs => (execAll_singleton i s).trans (h s hs)

/-- After a command that left the block B, they compute from B, and no trace of that command's ERR stays. -/
theorem ComputesBlk.after_block {cs : List Instr} {f : Memory → Block → Except Fault Block} (h : ComputesBlk cs f)
    {s : State} (hs : s.ready = true) (B : Block) : execAll cs (s.setBlk B).succeed = finishBlk s (f s.mem B) :=
  (h (s.setBlk B).succeed hs).trans (finishBlk_setBlk_succeed s B (f s.mem B))

/-- Commands in sequence compute one thing after the other, and the first fault stops both. -/
theorem ComputesBlk.append {cs ds : List Instr} {f g : Memory → Block → Except Fault Block}
    (hf : ComputesBlk cs f) (hg : ComputesBlk ds g) : ComputesBlk (cs ++ ds) fun m B => f m B >>= g m := by
  intro s hs
  simp only [execAll_append, hf s hs]
  cases f s.mem s.blk with
  | error e => rfl
  | ok B => exact hg.after_block hs B

theorem ComputesBlk.cons {i : Instr} {cs : List Instr} {f g : Memory → Block → Except Fault Block}
    (hi : ComputesBlk [i] f) (hcs : ComputesBlk cs g) : ComputesBlk (i :: cs) fun m B => f m B >>= g m :=
  hi.append hcs

/-- PERM reads no byte that could be unwritten, so the commands after it run on the permuted block. -/
theorem ComputesBlk.perm_cons {cs : List Instr} {f : Memory → Block → Except Fault Block} (h : ComputesBlk cs f) :
    ComputesBlk (.perm :: cs) fun m B => f m (permute B) := by
  intro s hs
  have hperm : exec .perm s = .next (s.setBlk (permute s.blk)).succeed := rfl
  simp only [execAll, hperm]
  exact h.after_block hs (permute s.blk)

theorem computesBlk_subst : ComputesBlk [.subst] substituteStep := .single fun _ _ => rfl

theorem computesBlk_mixcol (c : BitVec 2) : ComputesBlk [.mixcol c] fun m => mixColumnStep m (columnOf c) :=
  .single fun _ _ => rfl

theorem computesBlk_addrk {r : BitVec 4} (hr : r.toNat ≤ 10) : ComputesBlk [.addrk r] fun m => addRoundKeyStep m r.toNat :=
  .single fun _ hs => exec_addrk_of_ready hr hs

/-- `MIX` is MixAll (R96). -/
theorem computesBlk_mixCommands : ComputesBlk mixCommands mixAllStep :=
  (computesBlk_mixcol 0#2).cons ((computesBlk_mixcol 1#2).cons ((computesBlk_mixcol 2#2).cons (computesBlk_mixcol 3#2)))

/-- `LAST` is the loop's round 0. -/
theorem computesBlk_lastCommands : ComputesBlk lastCommands fun m => decryptRoundsStep m 0 :=
  (computesBlk_subst.cons (computesBlk_addrk (r := 0#4) (by decide))).perm_cons

/-- `ROUND r`, then commands that do the rest of the loop, is the loop from round r down (R103). -/
theorem ComputesBlk.roundCommands_append {r : Nat} {cs : List Instr} (hr : r + 1 ≤ 10)
    (h : ComputesBlk cs fun m => decryptRoundsStep m r) :
    ComputesBlk (roundCommands (r + 1) ++ cs) fun m => decryptRoundsStep m (r + 1) := by
  have hnum : (BitVec.ofNat 4 (r + 1)).toNat = r + 1 := by
    rw [BitVec.toNat_ofNat]
    omega
  have hkey := computesBlk_addrk (r := BitVec.ofNat 4 (r + 1)) (by omega)
  rw [hnum] at hkey
  exact (computesBlk_subst.cons (hkey.cons (computesBlk_mixCommands.append h))).perm_cons

/-- `ROUND r; ...; ROUND 1; LAST` is DecryptBlock's loop from round r down (R103). -/
theorem computesBlk_roundsCommands : ∀ r ≤ 10, ComputesBlk (roundsCommands r) fun m => decryptRoundsStep m r
  | 0, _ => computesBlk_lastCommands
  | r + 1, hr => (computesBlk_roundsCommands r (by omega)).roundCommands_append hr

/-- The whole sequence is DecryptBlock. -/
theorem computesBlk_decryptCommands : ComputesBlk decryptCommands decryptBlockStep :=
  (computesBlk_addrk (r := 10#4) (by decide)).cons (computesBlk_roundsCommands 9 (by decide))

/-- Settles O25: the sequence computes DecryptBlock on the engine's stores, as DBLK does. -/
theorem primitiveSequenceEqualsDblk : Obligations.PrimitiveSequenceEqualsDblk := by
  have hdblk : ∀ s : State, s.ready = true → execAll decryptCommands s = exec .dblk s := fun s hs =>
    (computesBlk_decryptCommands s hs).trans (exec_dblk_of_ready hs).symm
  exact ⟨by decide, hdblk, fun s hs hl => (hdblk s hs).trans (dblkDecryptsBlk s hs hl)⟩

/-! ## The text of a command (R73, R76) -/

theorem assembleLine_mixcol : ∀ c, assembleLine (commandText (.mixcol c)) = some (.cmd (.mixcol c)) := by decide

theorem assembleLine_addrk :
    ∀ r : BitVec 4, r.toNat ≤ 10 → assembleLine (commandText (.addrk r)) = some (.cmd (.addrk r)) := by
  decide

/-- Settles O50: the text of each command assembles to it, and its word decodes to it. -/
theorem commandTextRoundTrip : Obligations.CommandTextRoundTrip := by
  intro i hwf
  refine ⟨?_, ?_⟩
  · cases i with
    | init => decide
    | dblk => decide
    | dbuf => decide
    | perm => decide
    | subst => decide
    | mixcol c => exact assembleLine_mixcol c
    | addrk r => exact assembleLine_addrk r (of_decide_eq_true hwf)
  · rw [disassemble, decodeOfEncodeIsIdentity i hwf]

end Sys2Proof.Machine
end

section
/-! SUPPORT. The key schedule (40_key_schedule.md): INIT's transform of KEY (R77), a second INIT (R86), and the tables 5 and 6,
which no command reads (R82, 41_block_transform.md R91, R92). -/

namespace Sys2Proof.Machine

/-! ## The first round key (R77) -/

/-- The first 16 schedule bytes are the transformed key. -/
theorem expand_getElem_of_lt_sixteen (key : Block) (S8 : Byte → Byte) (mixv : Vector Byte 10) {i : Nat} (h : i < 16) :
    (expand key S8 mixv)[i] = key[i] ^^^ whiten i := by
  rw [expand_get]
  simp only [Nat.div_eq_of_lt h, Nat.mod_eq_of_lt h]
  exact transformKey_get key i h

/-- Settles O11: the schedule that INIT writes starts with the transformed key, and INIT's frame keeps KEY. -/
theorem initTransformsKey : Obligations.InitTransformsKey := by
  refine ⟨fun s hw => ?_, fun i => by omega⟩
  obtain ⟨t, ht, hread, -, -⟩ := initWritesExpandedSchedule s hw
  obtain ⟨hkey, -⟩ := initFrame s t ht
  refine ⟨t, ht, hkey, fun i => ?_⟩
  have hi : i.val < 176 := by omega
  exact (hread ⟨i.val, hi⟩).trans (congrArg some (expand_getElem_of_lt_sixteen _ _ _ i.isLt))

/-! ## INIT on a current schedule (R86) -/

/-- Writing a schedule that the stores hold already leaves them: their form is canonical. -/
theorem writeSched_eq_self {m : Memory} {K : Vector Byte 176} (hwf : m.wf = true)
    (hread : ∀ k : Fin 176, m.read (schedOff k.val) = some K[k]) : m.writeBytes offSched K.toList = m := by
  refine Memory.ext_of_wf _ _ (Memory.wf_writeBytes _ _ _ hwf) hwf fun a => ?_
  by_cases ha : 0x100 ≤ a ∧ a < 0x100 + 176
  · obtain ⟨k, rfl⟩ : ∃ k : Fin 176, a = schedOff k.val :=
      ⟨⟨a - 0x100, by omega⟩, by simp only [schedOff, offSched]; omega⟩
    exact (read_writeSched_inside m K k).trans (hread k).symm
  · exact read_writeSched_outside m K ha

/-- While the schedule is current, INIT writes READY and ERR only. -/
theorem execInit_of_scheduleCurrent {s : State} (hwf : s.mem.wf = true) (h : ScheduleCurrent s) :
    exec .init s = .next { s with ready := true, err := 0#4 } := by
  obtain ⟨hwritten, hread⟩ := h
  refine (execInit_of_written hwritten).trans ?_
  rw [writeSched_eq_self hwf hread, State.scheduleWritten_eq]

/-- Settles O13: the first INIT leaves a current schedule and READY and ERR as the second sets them. -/
theorem secondInitChangesNothing : Obligations.SecondInitChangesNothing := by
  intro s t hwf h
  have hcurrent : ScheduleCurrent t := execInit_scheduleCurrent h
  obtain ⟨-, K, -, rfl⟩ := execInit_next_eq h
  exact execInit_of_scheduleCurrent (Memory.wf_writeBytes _ _ _ hwf) hcurrent

/-! ## Stores that differ in the tables 5 and 6 only (20_memory.md R46) -/

/-- The two stores read the same outside SBOX[5] and SBOX[6]. -/
def SameButTables56 (m n : Memory) : Prop := ∀ a, ¬ (0xC00 ≤ a ∧ a < 0xE00) → n.read a = m.read a

namespace SameButTables56
variable {m n : Memory}

theorem read_sbox (h : SameButTables56 m n) {t : Nat} (h5 : t ≠ 5) (h6 : t ≠ 6) (x : Byte) :
    n.read (sboxOff t x) = m.read (sboxOff t x) := by
  refine h _ ?_
  have := x.isLt
  simp only [sboxOff, offSbox]
  omega

theorem read_buf (h : SameButTables56 m n) (a : Nat) : n.read (bufOff a) = m.read (bufOff a) :=
  h _ (by simp only [bufOff, offBuf]; omega)

/-- A decryption reads SCHED and the tables 1 to 4 and 7, so the stores agree on all it reads (41_block_transform.md R92). -/
theorem sameDecryptReads (h : SameButTables56 m n) : SameDecryptReads m n := by
  refine ⟨fun t ht x => h.read_sbox (by omega) (by omega) x, fun k hk => h _ ?_⟩
  simp only [schedBytes] at hk
  simp only [schedOff, offSched]
  omega

theorem writeBytes (h : SameButTables56 m n) (a : Nat) (bs : List Byte) :
    SameButTables56 (m.writeBytes a bs) (n.writeBytes a bs) := by
  intro x hx
  rw [Memory.read_writeBytes, Memory.read_writeBytes, h x hx]

theorem memReadBlock_eq (h : SameButTables56 m n) (a : Nat) : memReadBlock n a = memReadBlock m a := by
  have hbuf : n.buf = m.buf := funext fun b => by rw [Memory.buf, Memory.buf, h.read_buf]
  rw [memReadBlock, memReadBlock, hbuf, requireWritten_congr (m := m) (n := n) fun b hb => ?_]
  obtain ⟨i, -, rfl⟩ := List.mem_map.1 hb
  exact h.read_buf _

/-- DBUF's loop stops with the same fault on both stores, or leaves stores that differ in the tables 5 and 6 only. -/
theorem decryptBlocksStep_agree : ∀ (count k : Nat) {m n : Memory}, SameButTables56 m n →
    (∃ f, decryptBlocksStep count k m = .error f ∧ decryptBlocksStep count k n = .error f) ∨
      ∃ m' n', decryptBlocksStep count k m = .ok m' ∧ decryptBlocksStep count k n = .ok n' ∧ SameButTables56 m' n' := by
  intro count
  induction count with
  | zero => exact fun k m n h => .inr ⟨m, n, rfl, rfl, h⟩
  | succ count ih =>
    intro k m n h
    simp only [decryptBlocksStep, h.memReadBlock_eq, decryptBlockStep_congr h.sameDecryptReads]
    cases memReadBlock m (16 * k) with
    | error f => exact .inl ⟨f, rfl, rfl⟩
    | ok B =>
      dsimp only [bind, Except.bind]
      cases decryptBlockStep m B with
      | error f => exact .inl ⟨f, rfl, rfl⟩
      | ok C => exact ih (k + 1) (h.writeBytes _ _)

end SameButTables56

/-! ## Outcomes that differ in the tables 5 and 6 only -/

/-- Both commands answer, with states that differ in the tables 5 and 6 only, or both stop with one fault. -/
inductive OutcomesAgree : Host.Outcome State Fault Refusal → Host.Outcome State Fault Refusal → Prop
  | next {u v : State} (h : AgreeButTables56 u v) : OutcomesAgree (.next u) (.next v)
  | fault (f : Fault) : OutcomesAgree (.fault f) (.fault f)

/-- A state agrees with itself over other stores that differ in the tables 5 and 6 only. -/
theorem agreeButTables56_setMem {s : State} {n : Memory} (h : SameButTables56 s.mem n) : AgreeButTables56 s (s.setMem n) :=
  ⟨h, rfl⟩

/-- Every state that agrees with `s` is `s` over such stores. -/
theorem AgreeButTables56.exists_setMem {s t : State} (h : AgreeButTables56 s t) :
    ∃ n, SameButTables56 s.mem n ∧ t = s.setMem n := by
  obtain ⟨hread, hrest⟩ := h
  exact ⟨t.mem, hread, congrArg (fun u => u.setMem t.mem) hrest⟩

section
variable {s : State} {n : Memory} (h : SameButTables56 s.mem n)
include h

theorem finishBlk_outcomesAgree (r : Except Fault Block) : OutcomesAgree (finishBlk s r) (finishBlk (s.setMem n) r) := by
  cases r with
  | error f => exact .fault f
  | ok B => exact .next (agreeButTables56_setMem (s := (s.setBlk B).succeed) h)

theorem raise_outcomesAgree (e : ErrCode) : OutcomesAgree (.next (s.raise e)) (.next ((s.setMem n).raise e)) :=
  .next (agreeButTables56_setMem (s := s.raise e) h)

theorem raiseDbuf_outcomesAgree (e : ErrCode) : OutcomesAgree (.next (s.raiseDbuf e)) (.next ((s.setMem n).raiseDbuf e)) :=
  .next (agreeButTables56_setMem (s := s.raiseDbuf e) h)

/-- INIT looks up table 8 only (R82). -/
theorem execInit_outcomesAgree : OutcomesAgree (execInit s) (execInit (s.setMem n)) := by
  have h8 (x : Byte) : n.read (sboxOff 8 x) = s.mem.read (sboxOff 8 x) := h.read_sbox (by decide) (by decide) x
  obtain ⟨hlookups, hsched⟩ := initSchedule_congr (s := s) (t := s.setMem n) rfl rfl h8
  have hcheck : requireWritten n .unwrittenSbox (initLookups s) = requireWritten s.mem .unwrittenSbox (initLookups s) := by
    refine requireWritten_congr fun a ha => ?_
    obtain ⟨x, rfl⟩ := exists_of_mem_initLookups ha
    exact h8 x
  rw [execInit, execInit, hlookups, hsched, State.setMem_mem, hcheck]
  generalize initSchedule s = sched
  cases requireWritten s.mem .unwrittenSbox (initLookups s) with
  | error f => exact .fault f
  | ok _ => exact .next ⟨h.writeBytes _ _, rfl⟩

theorem execDblk_outcomesAgree : OutcomesAgree (execDblk s) (execDblk (s.setMem n)) := by
  rw [execDblk, execDblk, State.setMem_ready]
  split
  · exact raise_outcomesAgree h _
  · rw [State.setMem_mem, State.setMem_blk, decryptBlockStep_congr h.sameDecryptReads]
    exact finishBlk_outcomesAgree h _

theorem execAddrk_outcomesAgree (r : BitVec 4) : OutcomesAgree (execAddrk r s) (execAddrk r (s.setMem n)) := by
  rw [execAddrk, execAddrk, State.setMem_ready]
  by_cases hr : legalRoundKey r = false
  · rw [if_pos hr, if_pos hr]
    exact raise_outcomesAgree h _
  rw [if_neg hr, if_neg hr]
  split
  · exact raise_outcomesAgree h _
  · have hle : r.toNat ≤ 10 := (legalRoundKey_iff r).1 (by simpa using hr)
    rw [State.setMem_mem, State.setMem_blk, addRoundKeyStep_congr hle h.sameDecryptReads.2]
    exact finishBlk_outcomesAgree h _

theorem lastBlockStep_setMem : lastBlockStep (s.setMem n) = lastBlockStep s := by
  simp only [lastBlockStep, State.setMem_mem, State.setMem_len, h.memReadBlock_eq, decryptBlockStep_congr h.sameDecryptReads]

theorem dbufDecrypt_outcomesAgree : OutcomesAgree (dbufDecrypt s) (dbufDecrypt (s.setMem n)) := by
  rw [dbufDecrypt, dbufDecrypt, lastBlockStep_setMem h, State.setMem_len, State.setMem_mem]
  cases lastBlockStep s with
  | error f => exact .fault f
  | ok B =>
    dsimp only
    split
    · exact raiseDbuf_outcomesAgree h _
    · obtain ⟨f, hm, hn⟩ | ⟨m', n', hm, hn, h'⟩ := h.decryptBlocksStep_agree (s.len.toNat / 16) 0
      · rw [hm, hn]
        exact .fault f
      · rw [hm, hn]
        exact .next ⟨h', rfl⟩

theorem execDbuf_outcomesAgree : OutcomesAgree (execDbuf s) (execDbuf (s.setMem n)) := by
  have hlen : badLength (s.setMem n) = badLength s := rfl
  rw [execDbuf, execDbuf, hlen, State.setMem_ready]
  split
  · exact raiseDbuf_outcomesAgree h _
  split
  · exact raiseDbuf_outcomesAgree h _
  · exact dbufDecrypt_outcomesAgree h

/-- SUBST looks up table 7 only (41_block_transform.md R90). -/
theorem execSubst_outcomesAgree : OutcomesAgree (execSubst s) (execSubst (s.setMem n)) := by
  rw [execSubst, execSubst, State.setMem_mem, State.setMem_blk,
    substituteStep_congr fun x => h.read_sbox (by decide) (by decide) x]
  exact finishBlk_outcomesAgree h _

/-- MIXCOL looks up the tables 1 to 4 only (R91, R92). -/
theorem execMixcol_outcomesAgree (c : BitVec 2) : OutcomesAgree (execMixcol c s) (execMixcol c (s.setMem n)) := by
  rw [execMixcol, execMixcol, State.setMem_mem, State.setMem_blk,
    mixColumnStep_congr fun t _ h4 x => h.read_sbox (by omega) (by omega) x]
  exact finishBlk_outcomesAgree h _

theorem exec_outcomesAgree (i : Instr) : OutcomesAgree (exec i s) (exec i (s.setMem n)) := by
  cases i with
  | init => exact execInit_outcomesAgree h
  | dblk => exact execDblk_outcomesAgree h
  | dbuf => exact execDbuf_outcomesAgree h
  | perm => exact finishBlk_outcomesAgree h (.ok (permute s.blk))
  | subst => exact execSubst_outcomesAgree h
  | mixcol c => exact execMixcol_outcomesAgree h c
  | addrk r => exact execAddrk_outcomesAgree h r

end

/-- Settles O38, command by command: each reads outside the tables 5 and 6 only, and writes the same bytes. -/
theorem tablesFiveAndSixNeverMatter : Obligations.TablesFiveAndSixNeverMatter := by
  intro i s t h
  obtain ⟨n, hn, rfl⟩ := h.exists_setMem
  have hagree := exec_outcomesAgree hn i
  generalize exec i s = x, exec i (s.setMem n) = y at hagree ⊢
  cases hagree with
  | next h => exact h
  | fault f => rfl

end Sys2Proof.Machine
end

section
/-! SUPPORT. The block primitives (41_block_transform.md): PERM's source index and its fourth power (R88, R89, R99), and ADDRK's
round key, added once and twice (R97, R102), or refused while READY = 0 (60_exceptions.md R117). -/

namespace Sys2Proof.Machine

/-! ## PERM (R88, R89, R99) -/

/-- Settles O15: PERM's block is Permute(BLK), and 4 (16 − i) + i is 64 − 3i. -/
theorem permMovesBytes : Obligations.PermMovesBytes := by
  refine fun s => ⟨(s.setBlk (permute s.blk)).succeed, rfl, fun i => ?_, fun i => ?_, rfl⟩
  · exact permute_get s.blk i.val i.isLt
  · congr 1
    omega

/-- Each Permute moves lane l on by l columns, so four of them move it by 4l columns, back to where it was (R89). -/
theorem permute_four (B : Block) : permute (permute (permute (permute B))) = B := by
  refine Vector.ext fun i hi => ?_
  simp only [permute_get]
  exact getElem_congr_idx (by omega)

/-- PERM's byte i comes from its own lane, out of the column i div 4 − i mod 4 (R89). -/
theorem permSource_eq (i : Fin 16) : (64 - 3 * i.val) % 16 = 4 * ((i.val / 4 + 4 - i.val % 4) % 4) + i.val % 4 := by
  have hsplit : 64 - 3 * i.val = 16 * (3 - i.val / 4 + (i.val / 4 + 4 - i.val % 4) / 4) +
      (4 * ((i.val / 4 + 4 - i.val % 4) % 4) + i.val % 4) := by omega
  rw [hsplit, Nat.mul_add_mod, Nat.mod_eq_of_lt (by omega)]

theorem execAll_perm_cons (is : List Instr) (s : State) :
    execAll (.perm :: is) s = execAll is (s.setBlk (permute s.blk)).succeed := rfl

/-- Of two commands that leave a block, only the later one's block stays. -/
theorem setBlk_succeed_setBlk_succeed (s : State) (B C : Block) :
    ((s.setBlk B).succeed.setBlk C).succeed = (s.setBlk C).succeed := rfl

/-- Settles O16: P moves each lane by a number of columns that depends on the lane only. -/
theorem fourPermsRestoreBlk : Obligations.FourPermsRestoreBlk := by
  unfold Obligations.FourPermsRestoreBlk
  intro P
  have hP : ∀ i, P i = 4 * ((i.val / 4 + 4 - i.val % 4) % 4) + i.val % 4 := permSource_eq
  refine ⟨fun i j h => Fin.ext ?_, fun i => ?_, fun i => ?_, fun s => ?_⟩
  · rw [hP, hP] at h
    omega
  · rw [hP]
    omega
  · rw [hP]
    omega
  · rw [execAll_perm_cons, execAll_perm_cons, execAll_perm_cons, execAll_perm_cons]
    simp only [State.setBlk_blk, State.succeed_blk, setBlk_succeed_setBlk_succeed, permute_four]
    rfl

/-! ## ADDRK (R97, R102) -/

/-- With a written round key ADDRK completes with AddRoundKey(BLK, r). -/
theorem exec_addrk_of_written {s : State} {r : BitVec 4} (hr : r.toNat ≤ 10) (hready : s.ready = true)
    (hw : ∀ a, RoundKeyReads r.toNat a → s.mem.written a = true) :
    exec (.addrk r) s = .next { s with blk := addRoundKey s.mem.sched r.toNat s.blk, err := 0#4 } :=
  (exec_addrk_of_ready hr hready).trans (finishBlk_of_written (addRoundKeyStep_answers s.mem hr s.blk) hw)

/-- Settles O19: the 16 bytes are the round key that ADDRK reads, and XOR with BLK' undoes the XOR with BLK. -/
theorem addrkXorsRoundKey : Obligations.AddrkXorsRoundKey := by
  intro s r hr hready hw
  refine ⟨_, exec_addrk_of_written hr hready fun a ⟨i, e⟩ => e ▸ hw i, fun i => ?_, rfl⟩
  have hoff : 0x100 + 16 * r.toNat + i.val = schedOff (16 * r.toNat + i.val) := Nat.add_assoc _ _ _
  calc s.mem.read (0x100 + 16 * r.toNat + i.val)
      = some (s.mem.sched (16 * r.toNat + i.val)) := by
        rw [hoff]
        exact Memory.read_eq_sched (hoff ▸ hw i)
    _ = some (s.blk[i] ^^^ (addRoundKey s.mem.sched r.toNat s.blk)[i]) := by
        rw [addRoundKey_get, ← BitVec.xor_assoc, BitVec.xor_self, BitVec.zero_xor]

/-- A round key added twice cancels (R102). -/
theorem addRoundKey_addRoundKey (K : Nat → Byte) (r : Nat) (B : Block) : addRoundKey K r (addRoundKey K r B) = B := by
  refine Vector.ext fun i hi => ?_
  have hget := fun C : Block => addRoundKey_get K r C ⟨i, hi⟩
  calc (addRoundKey K r (addRoundKey K r B))[i]
      = B[i] ^^^ K (16 * r + i) ^^^ K (16 * r + i) := (hget _).trans (congrArg (· ^^^ K (16 * r + i)) (hget B))
    _ = B[i] := by rw [BitVec.xor_assoc, BitVec.xor_self, BitVec.xor_zero]

/-- Settles O20: the first ADDRK completed, so the round key is written, and it changed neither READY nor SCHED. -/
theorem addrkTwiceRestoresBlk : Obligations.AddrkTwiceRestoresBlk := by
  intro s t r hready hr h
  obtain ⟨hlarge, -⟩ | ⟨-, hnot, -⟩ | ⟨-, -, B, hB, -⟩ := execAddrk_next h
  · omega
  · rw [hready] at hnot
    cases hnot
  · obtain ⟨hw, -⟩ := (addRoundKeyStep_answers s.mem hr s.blk).of_ok hB
    obtain rfl := Host.Outcome.next.inj ((exec_addrk_of_written hr hready hw).symm.trans h)
    have htwice := exec_addrk_of_written (s := { s with blk := addRoundKey s.mem.sched r.toNat s.blk, err := 0#4 }) hr hready hw
    rwa [addRoundKey_addRoundKey] at htwice

/-! ## READY = 0 (R102, 42_engine_commands.md R106, 60_exceptions.md R117) -/

/-- Settles O35: both test READY before they read anything. -/
theorem notReadyFailsDblkAndAddrk : Obligations.NotReadyFailsDblkAndAddrk := by
  intro s hnot
  refine ⟨?dblk, fun r hr => ?addrk⟩
  case dblk =>
    rw [exec, execDblk, if_pos hnot]
    rfl
  case addrk =>
    have hlegal : legalRoundKey r ≠ false := by simp [(legalRoundKey_iff r).2 hr]
    rw [exec, execAddrk, if_neg hlegal, if_pos hnot]
    rfl

end Sys2Proof.Machine
end

section
/-! SUPPORT. DBUF (42_engine_commands.md): the three checks in the order of 60_exceptions.md R124, and each block of a
success against DBLK. -/

namespace Sys2Proof.Machine

/-! ## The checks that fail DBUF (R108 to R111) -/

/-- Settles O26: the length is the first check, so READY is not looked at. -/
theorem dbufRejectsBadLength : Obligations.DbufRejectsBadLength := by
  intro s hlen
  rw [exec, execDbuf, if_pos ((badLength_iff s).2 hlen), State.raiseDbuf_eq, ErrCode.code]

/-- Settles O27: with a good length READY is the next check. -/
theorem dbufRejectsNotReady : Obligations.DbufRejectsNotReady := by
  intro s h0 h16 hle hnot
  have hlen : ¬ badLength s = true := by simp [badLength_eq_false h0 h16 hle]
  rw [exec, execDbuf, if_neg hlen, if_pos hnot, State.raiseDbuf_eq, ErrCode.code]

/-- Settles O28: the pre-check decrypts the last block, whose final byte is no pad length; the loop is not reached. -/
theorem dbufRejectsBadPadding : Obligations.DbufRejectsBadPadding := by
  intro s h0 h16 hle hready hloaded hbuf hpad
  have hlast := lastBlockStep_of_loaded hloaded hbuf
  have hbad : badPadding (padLength s) s.len.toNat = true := (badPadding_iff (by omega)).2 hpad
  rw [exec_dbuf_of_ready (badLength_eq_false h0 h16 hle) hready, dbufDecrypt_of_badPadding hlast hbad]

/-! ## DBUF block by block (R106, R112, R113) -/

/-- A DBUF that leaves ERR = 0 has passed the ready check and run the loop to its end. -/
theorem execDbuf_success {s t : State} (h : exec .dbuf s = .next t) (herr : t.err = 0#4) :
    s.ready = true ∧ decryptBlocksStep (s.len.toNat / 16) 0 s.mem = .ok t.mem := by
  obtain ⟨-, rfl⟩ | ⟨-, -, rfl⟩ | ⟨-, -, -, rfl⟩ | ⟨-, hready, -, m, hloop, rfl⟩ := execDbuf_next h
  · exact absurd herr (ErrCode.code_ne_zero (e := .invalidBlockLength) (by decide))
  · exact absurd herr (ErrCode.code_ne_zero (e := .notInitialized) (by decide))
  · exact absurd herr (ErrCode.code_ne_zero (e := .invalidPadding) (by decide))
  · exact ⟨hready, hloop⟩

/-- DBLK on a block put into BLK answers with its decryption, where DecryptBlock completes. -/
theorem exec_dblk_setBlk {s : State} {B C : Block} (hready : s.ready = true) (h : decryptBlockStep s.mem B = .ok C) :
    exec .dblk (s.setBlk B) = .next ((s.setBlk B).setBlk C).succeed := by
  rw [exec_dblk_of_ready (s := s.setBlk B) hready, State.setBlk_mem, State.setBlk_blk, h, finishBlk]

/-- Settles O30: the loop leaves in block k what DecryptBlock gives for what block k held, and DBLK puts that into BLK. -/
theorem dbufBlockEqualsDblk : Obligations.DbufBlockEqualsDblk := by
  intro s t k h herr hk
  obtain ⟨hready, hloop⟩ := execDbuf_success h herr
  obtain ⟨hblocks, -, -⟩ := decryptBlocksStep_eq_ok _ _ _ _ hloop
  obtain ⟨hdecrypt, hread⟩ := hblocks k (Nat.zero_le k) (by omega)
  exact ⟨_, exec_dblk_setBlk hready hdecrypt, hread⟩

end Sys2Proof.Machine
end

section
/-! SUPPORT. Errors of commands (60_exceptions.md): the words that are no command (R120), what a failing command leaves as it was
(R122), and the cause behind each code of STATUS.ERR (R116). -/

namespace Sys2Proof.Machine

/-! ## Illegal words (30_encoding.md R71) -/

/-- The word of a well-formed command obeys the rules of 30_encoding.md R68 and R69 in each of its fields. -/
theorem fields_encode {i : Instr} (hwf : i.wellFormed = true) :
    rsvField (encode i) = 0#20 ∧
    opField (encode i) ∈ [0x01#8, 0x02#8, 0x03#8, 0x10#8, 0x11#8, 0x12#8, 0x13#8] ∧
    (opField (encode i) ∈ [0x01#8, 0x02#8, 0x03#8, 0x10#8, 0x11#8] → argField (encode i) = 0#4) ∧
    (opField (encode i) = 0x12#8 → (argField (encode i)).extractLsb' 2 2 = 0#2) ∧
    (opField (encode i) = 0x13#8 → (argField (encode i)).toNat ≤ 10) := by
  cases i with
  | init => decide
  | dblk => decide
  | dbuf => decide
  | perm => decide
  | subst => decide
  | mixcol c => revert c; decide
  | addrk r => simpa [encode] using of_decide_eq_true hwf

/-- Settles O7: each way of being illegal breaks a rule that the fields of every command's word obey, and ExecuteCommand refuses
a word that is no command's. -/
theorem illegalWordOnlySetsErr : Obligations.IllegalWordOnlySetsErr := by
  intro s v hillegal
  refine executeCommand_of_not_mem_legalWords (fun hv => ?_) s
  obtain ⟨i, hd⟩ := (exists_decode_eq_ok_iff v).2 hv
  obtain ⟨hwf, rfl⟩ := decodedWordIsItsEncoding v i hd
  obtain ⟨hrsv, hseven, hnoArg, hmixcol, haddrk⟩ := fields_encode hwf
  obtain h | h | ⟨hop, h⟩ | ⟨hop, h⟩ | ⟨hop, h⟩ := hillegal
  · exact h hrsv
  · exact h hseven
  · exact h (hnoArg hop)
  · exact h (hmixcol hop)
  · exact Nat.not_le.2 h (haddrk hop)

/-! ## Failures are precise (R122) -/

/-- A command that reports an error writes ERR and, if it is DBUF, OUT_LEN, and nothing else. -/
theorem exec_failure {i : Instr} {s t : State} (h : exec i s = .next t) (herr : t.err ≠ 0#4) :
    ∃ e : ErrCode, e ≠ .ok ∧ t = { s with err := e.code, outLen := if i = .dbuf then 0#32 else s.outLen } := by
  by_cases hinit : i = .init
  · subst hinit
    obtain ⟨-, rfl⟩ := execInit_next h
    exact absurd (State.succeed_err _) herr
  by_cases hdbuf : i = .dbuf
  · obtain ⟨e, he, rfl⟩ | ⟨m, n, -, -, -, rfl⟩ := execDbuf_outcome (hdbuf ▸ h)
    · exact ⟨e, he, by rw [if_pos hdbuf, State.raiseDbuf_eq]⟩
    · exact absurd (State.succeed_err _) herr
  · obtain ⟨e, rfl⟩ | ⟨B, rfl⟩ := exec_blockCommand_next hinit hdbuf h
    · exact ⟨e, fun he => herr (by rw [he]; rfl), by rw [if_neg hdbuf, State.raise_eq]⟩
    · exact absurd (State.succeed_err _) herr

/-- The word of DBUF is 0x00000003, and no other word decodes to it (30_encoding.md R69). -/
theorem decode_eq_dbuf_iff (v : Word) : decode v = .ok .dbuf ↔ v = 0x00000003#32 := by
  constructor
  · intro hd
    obtain ⟨-, rfl⟩ := decodedWordIsItsEncoding v _ hd
    rfl
  · rintro rfl
    rfl

/-- Settles O33: a refused word raises IllegalCommand and is not DBUF's; a command fails as `exec_failure` says. -/
theorem failureIsPrecise : Obligations.FailureIsPrecise := by
  intro v s t h herr
  obtain ⟨i, hd, hi⟩ | ⟨⟨r, hd⟩, rfl⟩ := executeCommand_next h
  · have hdbuf : i = .dbuf ↔ v = 0x00000003#32 := by rw [← decode_eq_dbuf_iff, hd, Except.ok.injEq]
    simpa only [hdbuf] using exec_failure hi herr
  · have hv : v ≠ 0x00000003#32 := by
      rw [Ne, ← decode_eq_dbuf_iff, hd]
      exact nofun
    exact ⟨.illegalCommand, by decide, by rw [if_neg hv, State.raise_eq]⟩

/-! ## The causes of the codes (R116 to R119) -/

/-- A length that passes DBUF's check holds at least one block (R118). -/
theorem sixteen_le_len {s : State} (h : badLength s = false) : 16 ≤ s.len.toNat := by
  have hgood := (not_congr (badLength_iff s)).1 (by simp [h])
  omega

/-- Settles O34: the code that each command's checks raise, with the check that raised it; ADDRK's IllegalCommand is for
round-key numbers that no word gives. -/
theorem errCodesHaveTheirCauses : Obligations.ErrCodesHaveTheirCauses := by
  intro i s t hwf h
  have finish {r : Except Fault Block} (hf : finishBlk s r = .next t) : t.err = 0#4 := by
    obtain ⟨B, -, rfl⟩ := finishBlk_next hf
    rfl
  cases i with
  | init =>
    obtain ⟨-, rfl⟩ := execInit_next h
    exact .inl rfl
  | dblk =>
    obtain ⟨hnot, rfl⟩ | ⟨-, B, -, rfl⟩ := execDblk_next h
    · exact .inr (.inl ⟨rfl, hnot, .inl rfl⟩)
    · exact .inl rfl
  | dbuf =>
    obtain ⟨hlen, rfl⟩ | ⟨-, hnot, rfl⟩ | ⟨hlen, hready, hpad, rfl⟩ | ⟨-, -, -, m, -, rfl⟩ := execDbuf_next h
    · exact .inr (.inr (.inl ⟨rfl, rfl, (badLength_iff s).1 hlen⟩))
    · exact .inr (.inl ⟨rfl, hnot, .inr (.inl rfl)⟩)
    · exact .inr (.inr (.inr ⟨rfl, rfl, hready, (badPadding_iff (sixteen_le_len hlen)).1 hpad⟩))
    · exact .inl rfl
  | perm => exact .inl (finish (r := .ok (permute s.blk)) h)
  | subst => exact .inl (finish h)
  | mixcol c => exact .inl (finish h)
  | addrk r =>
    obtain ⟨hr, -⟩ | ⟨-, hnot, rfl⟩ | ⟨-, -, B, -, rfl⟩ := execAddrk_next h
    · exact absurd (of_decide_eq_true hwf) (Nat.not_le.2 hr)
    · exact .inr (.inl ⟨rfl, hnot, .inr (.inr ⟨r, rfl⟩)⟩)
    · exact .inl rfl

end Sys2Proof.Machine
end

section
/-! SUPPORT. The size of the buffer RAM (00_scope.md R9): no command, no host access and no reset input changes it. -/

namespace Sys2Proof.Machine

theorem executeCommand_keeps_bufBytes {v : Word} {s t : State} (h : executeCommand v s = .next t) :
    t.bufBytes = s.bufBytes := by
  obtain ⟨i, -, hi⟩ | ⟨-, rfl⟩ := executeCommand_next h
  · obtain ⟨-, -, -, -, hb⟩ := exec_keeps_len_and_hostSide hi
    exact hb
  · exact State.raise_bufBytes s _

/-- Only a write to CMD runs a command; a write to any other offset changes at most READY and one other field (R52). -/
theorem hostWrite_keeps_bufBytes {s t : State} {a : Nat} {v : Word} (h : hostWrite s a v = .next t) :
    t.bufBytes = s.bufBytes := by
  obtain ⟨-, hc⟩ | ⟨-, rfl⟩ | ⟨-, -, rfl⟩ | ⟨-, -, rfl⟩ | ⟨-, -, rfl⟩ | ⟨-, -, rfl⟩ | ⟨-, -, rfl⟩ |
    ⟨-, -, -, -, -, rfl⟩ := hostWrite_next h
  · exact executeCommand_keeps_bufBytes hc
  all_goals rfl

/-- The reset input takes the size from the state it resets, not from `State.reset` (log entry 10). -/
@[simp] theorem resetEngine_bufBytes (s : State) : (resetEngine s).bufBytes = s.bufBytes := rfl

theorem hostEvent_keeps_bufBytes {e : HostEvent} {s t : State} (h : hostEvent e s = .next t) :
    t.bufBytes = s.bufBytes := by
  obtain ⟨-, rfl⟩ | ⟨off, -, -, rfl⟩ | ⟨off, v, -, -, hw⟩ := hostEvent_next h
  · exact resetEngine_bufBytes s
  · exact State.logRead_bufBytes s _
  · exact hostWrite_keeps_bufBytes hw

/-- Settles O57: taking an access off the waiting ones keeps the size, and so does every event carried out. -/
theorem stepKeepsBufBytes : Obligations.StepKeepsBufBytes := by
  intro s t hstep
  obtain ⟨-, rfl⟩ | ⟨e, rest, -, he⟩ := step_next hstep
  · rfl
  · exact (hostEvent_keeps_bufBytes he).trans (State.setPending_bufBytes s rest)

end Sys2Proof.Machine
end
